-- ==== Sys2Proof/Word.lean ====
section
/-! DEFINITION. The words of the engine and of its two ports (spec/00_scope.md R12, R13; spec/30_encoding.md R57, R59).
Bit 0 is the least significant bit and every value is unsigned, so the operators of R14 are the ones `BitVec`
already has: `&&&`, `|||`, `^^^`, `~~~`, the logical `>>>`, and `<<<`, `+`, `*` truncated to the width. -/

namespace Sys2Proof

/-- `BV(W)`, one word of the state array (R12, R20). -/
abbrev Word (W : Nat) := BitVec W

/-- The 72-bit word a host presents on the command port: opcode in bits 71:64, operand in bits 63:0 (R57). -/
abbrev CommandWord := BitVec 72

/-- The 72-bit word the engine emits on the response port: status in bits 71:64, data in bits 63:0 (R59). -/
abbrev ResponseWord := BitVec 72

end Sys2Proof
end

