-- ==== Sys2Proof/Config.lean ====
section
/-! DEFINITION. What is fixed when an instance is built (spec/00_scope.md R7, R8) and the model's one family of free
values. The two tables themselves stand in Sys2Proof/Machine/Presets.lean. -/

namespace Sys2Proof

/-- The two variants; there is no third (R7). -/
inductive Variant where
  /-- word_width 32. -/
  | mt32
  /-- word_width 64. -/
  | mt64
  deriving DecidableEq, Repr

/-- The constant table: the thirteen parameters of R8, each a field, so that a claim names its table. -/
structure Preset where
  /-- Bits per word. -/
  W : Nat
  /-- Number of state words. -/
  n : Nat
  /-- Recurrence offset of the twist. -/
  m : Nat
  /-- Bit position that separates the lower from the upper part of a word. -/
  r : Nat
  /-- Constant XORed in by the twist when its feedback bit is set. -/
  a : Word W
  /-- Right shift of tempering stage 1. -/
  u : Nat
  /-- Mask of tempering stage 1. -/
  d : Word W
  /-- Left shift of tempering stage 2. -/
  s : Nat
  /-- Mask of tempering stage 2. -/
  b : Word W
  /-- Left shift of tempering stage 3. -/
  t : Nat
  /-- Mask of tempering stage 3. -/
  c : Word W
  /-- Right shift of tempering stage 4. -/
  l : Nat
  /-- Multiplier of the seeding recurrence. -/
  f : Word W
  deriving DecidableEq, Repr

/-- FREE VALUE (log entry 2). What the words of the array hold after a reset is unspecified (R34, R150): the word of
width `W` at index `i` of the `generation`-th time the array becomes unspecified is this constant, which has no body. -/
opaque Config.unspecifiedWord (W generation i : Nat) : Word W

end Sys2Proof
end

