-- ==== Sys2Proof/Machine/Presets.lean ====
section
/-! DEFINITION. The two constant tables (spec/00_scope.md R8), the derived masks (R9) and the choice of a variant by its
word width (spec/60_exceptions.md R133). -/

namespace Sys2Proof

/-- The table of MT32 (R8). PRESUMED by the spec itself: a, u, d, s, b, t, c, l and f are its general-knowledge values
(spec/93_implementation_defined.md G1), log entry 3. -/
abbrev presetMT32 : Preset where
  W := 32
  n := 624
  m := 397
  r := 31
  a := 0x9908B0DF#32
  u := 11
  d := 0xFFFFFFFF#32
  s := 7
  b := 0x9D2C5680#32
  t := 15
  c := 0xEFC60000#32
  l := 18
  f := 0x6C078965#32

/-- The table of MT64 (R8); the same mark as `presetMT32`. -/
abbrev presetMT64 : Preset where
  W := 64
  n := 312
  m := 156
  r := 31
  a := 0xB5026F5AA96619E9#64
  u := 29
  d := 0x5555555555555555#64
  s := 17
  b := 0x71D67FFFEDA60000#64
  t := 37
  c := 0xFFF7EEE000000000#64
  l := 43
  f := 0x5851F42D4C957F2D#64

/-- "variant selects the full constant table" (R7). -/
abbrev preset : Variant → Preset
  | .mt32 => presetMT32
  | .mt64 => presetMT64

/-- DESIGN CHOICE (log entry 1): the variant of the instance that `State.reset` describes. -/
abbrev instanceVariant : Variant := .mt32

/-- InvalidVariant (R133): a width other than 32 and 64 has no instance. -/
def variantOfWidth (width : Nat) : Option Variant :=
  if width = 32 then some .mt32 else if width = 64 then some .mt64 else none

/-- `lower_mask = (1 << r) - 1` (R9). -/
def Preset.lowerMask (p : Preset) : Word p.W := (1#p.W <<< p.r) - 1#p.W

/-- `upper_mask = ~lower_mask` within W bits (R9). -/
def Preset.upperMask (p : Preset) : Word p.W := ~~~p.lowerMask

/-- An instance has at least one state word, so index 0 exists (R8). -/
theorem preset_n_pos (v : Variant) : 0 < (preset v).n := by cases v <;> decide

end Sys2Proof
end

