-- ==== Sys2Proof/Machine/Temper.lean ====
section
/-! DEFINITION. The tempering pipeline (spec/42_extract.md R106 to R113). -/

namespace Sys2Proof.Machine

/-- Stage 1 (R106). -/
def temper1 (p : Preset) (y : Word p.W) : Word p.W := y ^^^ ((y >>> p.u) &&& p.d)

/-- Stage 2 (R107). -/
def temper2 (p : Preset) (y : Word p.W) : Word p.W := y ^^^ ((y <<< p.s) &&& p.b)

/-- Stage 3 (R108). -/
def temper3 (p : Preset) (y : Word p.W) : Word p.W := y ^^^ ((y <<< p.t) &&& p.c)

/-- Stage 4 (R109). -/
def temper4 (p : Preset) (y : Word p.W) : Word p.W := y ^^^ (y >>> p.l)

/-- TEMPER: the four stages in order, each on the result of the one before (R112). -/
def temper (p : Preset) (y0 : Word p.W) : Word p.W := temper4 p (temper3 p (temper2 p (temper1 p y0)))

end Sys2Proof.Machine
end

