-- ==== Sys2Proof/Syntax.lean ====
section
/-! DEFINITION. The commands, one constructor per row of spec/opcode_table.json (spec/30_encoding.md R62). TWIST has no
opcode (spec/41_twist.md R85) and reset is no command (R74), so neither is here. -/

namespace Sys2Proof

/-- A decoded command. -/
inductive Instr where
  /-- SEED: every 64-bit operand is legal (R63). -/
  | seed (operand : BitVec 64)
  /-- EXTRACT: its operand field must be zero, so it carries none (R64). -/
  | extract
  deriving DecidableEq, Repr

end Sys2Proof
end

