-- ==== Sys2Proof/WellFormed.lean ====
section
/-! DEFINITION. The checks: commands, constant tables and response words. -/

namespace Sys2Proof

/-- A command is well formed for every operand: R63 makes every SEED operand legal and EXTRACT has none (R64). The format
leaves nothing to refuse here; the words it does refuse are the decoder's (Decode.lean). -/
def Instr.wellFormed : Instr → Bool
  | .seed _ => true
  | .extract => true

/-- The bounds on a table's numbers that the spec uses: indices of the twist (spec/20_memory.md R41), `1 <= r` (R89),
and `1 <= u, s, t, l < W` (spec/93_implementation_defined.md G1). -/
def Preset.wellFormed (p : Preset) : Bool :=
  1 ≤ p.m && p.m < p.n && p.n + 1 < 1024 && 1 ≤ p.r && p.r < p.W && p.W ≤ 64 &&
    1 ≤ p.u && p.u < p.W && 1 ≤ p.s && p.s < p.W && 1 ≤ p.t && p.t < p.W && 1 ≤ p.l && p.l < p.W

/-- "must match one of exactly two supported presets" (R7): a table that mixes the two is refused (R11). -/
def Preset.supported (p : Preset) : Bool := p == presetMT32 || p == presetMT64

/-- The response words an instance may emit (R60, R61, R71): OK with a word below `2^W`, or one of the two faults with
zero data. -/
def legalResponse (p : Preset) (rw : ResponseWord) : Bool :=
  rw.toNat < 2 ^ p.W || rw == 0x010000000000000000#72 || rw == 0x020000000000000000#72

end Sys2Proof
end

