-- ==== Sys2Proof/Decode.lean ====
section
/-! DEFINITION. The decoder, total on every 72-bit word, and the encoder (spec/30_encoding.md R57 to R68). -/

namespace Sys2Proof

/-- Why a word is no command (R66). -/
inductive IllegalWord where
  /-- Opcode 0x00 or 0x03 to 0xFF, with any operand. -/
  | reservedOpcode
  /-- Opcode 0x02 with an operand that is not zero. -/
  | extractOperand
  deriving DecidableEq, Repr

/-- `cw[71:64]` (R57). -/
def opcodeField (cw : CommandWord) : BitVec 8 := cw.extractLsb' 64 8

/-- `cw[63:0]` (R57, R58). -/
def operandField (cw : CommandWord) : BitVec 64 := cw.extractLsb' 0 64

/-- R65, its tests in its order. Decoding reads no state. -/
def decode (cw : CommandWord) : Except IllegalWord Instr :=
  if opcodeField cw = 0x01#8 then .ok (.seed (operandField cw))
  else if opcodeField cw = 0x02#8 then
    if operandField cw = 0#64 then .ok .extract else .error .extractOperand
  else .error .reservedOpcode

/-- The opcode map (R62). -/
def opcodeOf : Instr → BitVec 8
  | .seed _ => 0x01#8
  | .extract => 0x02#8

/-- The operand field of a command: the seed value, and zero for EXTRACT (R57). -/
def operandOf : Instr → BitVec 64
  | .seed operand => operand
  | .extract => 0#64

/-- The word of a command: format CMD (R57). -/
def encode (i : Instr) : CommandWord := opcodeOf i ++ operandOf i

/-- The `mask` of a command's row in spec/opcode_table.json (R63, R64). -/
def tableMask : Instr → CommandWord
  | .seed _ => 0xFF0000000000000000#72
  | .extract => 0xFFFFFFFFFFFFFFFFFF#72

/-- The `match` of a command's row in spec/opcode_table.json (R63, R64). -/
def tableMatch : Instr → CommandWord
  | .seed _ => 0x010000000000000000#72
  | .extract => 0x020000000000000000#72

/-- The command word whose bits, numbered as spec/opcode_table.json numbers them, are the low `nbits` bits of `w`; every
bit above is zero. A command word is one whole 72-bit word (R55), so its numbering is the table's. -/
def wordOfTable (nbits w : Nat) : CommandWord := BitVec.ofNat 72 (w % 2 ^ nbits)

/-- What the decoder reads from a word given as the table numbers its bits. -/
def decodeTableWord (nbits w : Nat) : Option Instr :=
  match decode (wordOfTable nbits w) with
  | .ok i => some i
  | .error _ => none

end Sys2Proof
end

