-- ==== Sys2Proof/Machine/Words.lean ====
section
/-! DEFINITION. The state array and its access primitives (spec/10_state.md R20 to R22, spec/20_memory.md R40 to R46): an
address is an index below n and an access moves one whole word, so no access can be out of range or misaligned. -/

namespace Sys2Proof.Machine

/-- The state array: n words of W bits (R20). -/
abbrev WordArray (p : Preset) := Vector (Word p.W) p.n

/-- `state[i]` (R42). -/
def readWord {p : Preset} (ws : WordArray p) (i : Fin p.n) : Word p.W := ws.get i

/-- `state[i] <- v`: all W bits of word i, and nothing else (R43). -/
def writeWord {p : Preset} (ws : WordArray p) (i : Fin p.n) (v : Word p.W) : WordArray p := ws.set i.val v i.isLt

/-- The array whose word i is `g i`: every word written once, in index order (R22). -/
def tabulateWords {p : Preset} (g : Nat → Word p.W) : WordArray p :=
  ⟨⟨List.ofFn fun i : Fin p.n => g i.val⟩, by simp⟩

/-- The first `k` rounds of `for i = 0 to n-1 do body`, in increasing index order (R15, R51). -/
def firstRounds {p : Preset} (body : WordArray p → Fin p.n → WordArray p) :
    (k : Nat) → k ≤ p.n → WordArray p → WordArray p
  | 0, _, ws => ws
  | k + 1, h, ws => body (firstRounds body k (Nat.le_of_succ_le h) ws) ⟨k, h⟩

/-- `for i = 0 to n-1 do body`: each round sees what the rounds before it wrote (R15, R51). -/
def forEachIndex {p : Preset} (body : WordArray p → Fin p.n → WordArray p) (ws : WordArray p) : WordArray p :=
  firstRounds body p.n (Nat.le_refl p.n) ws

end Sys2Proof.Machine
end

