-- ==== Sys2Proof/Machine/State.lean ====
section
/-! DEFINITION. The engine state of spec/10_state.md R33, the two ports of spec/30_encoding.md R55 as plain data, and the
state after reset (R34). -/

namespace Sys2Proof.Machine

/-- The two faults of the block (spec/60_exceptions.md R130). Neither STOPS the machine: raising one emits a response and
leaves a next state (R136), so no step of this model answers `Host.Outcome.fault`, and an instruction never does. -/
inductive Fault where
  /-- ILLEGAL_COMMAND: raised by the decoder, in any engine state, for a word that is no command (R131). Safe: the spec
  gives its response and that nothing changes. -/
  | illegalCommand
  /-- NOT_SEEDED: raised by EXTRACT, and only by it, while Uninitialized (R132). Safe: as above. -/
  | notSeeded
  deriving DecidableEq, Repr

/-- Reasons to answer without a meaning. No instruction of this model does. -/
inductive Refusal where
  /-- Raised by `exec` for an instruction that has no meaning yet; no arm uses it. Safe: nothing can be proved of a run
  past it. -/
  | notModelled (mnemonic : String)
  deriving DecidableEq, Repr

/-- What the outside does to the block (spec/00_scope.md R19): the two inputs. -/
inductive Event where
  /-- The reset input: no operand, no response (R74, R150). -/
  | reset
  /-- A command word on the command port, executed to its end (R55). -/
  | command (cw : CommandWord)
  /-- A command word accepted and then abandoned because reset arrives before its end (R151). -/
  | commandCutByReset (cw : CommandWord)
  deriving DecidableEq, Repr

/-- The engine state, the pair `(state, cursor)` of R33 and nothing more (R32). -/
structure Engine (p : Preset) where
  /-- The state array (R20). -/
  words : WordArray p
  /-- The cursor, 0 to n+1 (R24). -/
  cursor : Fin (p.n + 2)
  deriving DecidableEq, Repr

/-- The machine. `variant` is a constant of the instance that no step changes (R7); `engine` is the block's whole mutable
state; the other three fields are the model's own (log entries 2, 4, 5). -/
structure State where
  /-- The preset the instance was built with (R7, R30). -/
  variant : Variant
  /-- The engine state (R33). -/
  engine : Engine (preset variant)
  /-- What will arrive at the inputs, the next event first. -/
  input : List Event
  /-- Every response emitted, the first one first (R56). -/
  output : List ResponseWord
  /-- How many generations of the free value `Config.unspecifiedWord` have been used. -/
  freeCount : Nat
  deriving DecidableEq, Repr

/-- The state Uninitialized: cursor n+1, words unspecified (R25, R34). -/
def uninitializedEngine (p : Preset) (generation : Nat) : Engine p where
  words := tabulateWords fun i => Config.unspecifiedWord p.W generation i
  cursor := ⟨p.n + 1, by omega⟩

/-- An instance of variant `v` right after reset (R34): no command pending, no response. -/
def State.resetOf (v : Variant) : State where
  variant := v
  engine := uninitializedEngine (preset v) 0
  input := []
  output := []
  freeCount := 1

/-- The instance right after reset (R34); its variant is log entry 1. -/
def State.reset : State := State.resetOf instanceVariant

end Sys2Proof.Machine
end

