-- ==== Sys2Proof/Machine/Flags.lean ====
section
/-! DEFINITION. The engine stores no flag; EXTRACT tests two predicates of the cursor (spec/10_state.md R28). -/

namespace Sys2Proof.Machine

/-- `uninitialized := (cursor = n+1)` (R28). -/
def uninitialized {p : Preset} (e : Engine p) : Bool := e.cursor.val == p.n + 1

/-- `exhausted := (cursor >= n)` (R28). -/
def exhausted {p : Preset} (e : Engine p) : Bool := p.n ≤ e.cursor.val

/-- The cursor register as it is stored: 10 bits, unsigned binary, in both variants (R24). -/
def cursorBits {p : Preset} (e : Engine p) : BitVec 10 := BitVec.ofNat 10 e.cursor.val

end Sys2Proof.Machine
end

