-- ==== Sys2Proof/Machine/Operands.lean ====
section
/-! DEFINITION. How numbers sit in the fields of the two ports (spec/30_encoding.md R58 to R61, R72). -/

namespace Sys2Proof.Machine

/-- The seed value the engine uses, `trunc_W(operand)`: MT32 ignores `operand[63:32]` (R58, R76). -/
def seedValue (p : Preset) (operand : BitVec 64) : Word p.W := operand.setWidth p.W

/-- How a host presents an arbitrary integer as an operand: `v mod 2^64` (R72). -/
def presentSeed (v : Int) : BitVec 64 := BitVec.ofInt 64 v

/-- `zext_64(y)` (R60). -/
def dataOfWord {p : Preset} (y : Word p.W) : BitVec 64 := y.setWidth 64

/-- Status OK (R61). -/
def statusOk : BitVec 8 := 0x00#8

/-- The status code of each fault (R61). -/
def statusOfFault : Fault → BitVec 8
  | .illegalCommand => 0x01#8
  | .notSeeded => 0x02#8

/-- Format RSP: `rw = {status, data}` (R59). -/
def responseWord (status : BitVec 8) (data : BitVec 64) : ResponseWord := status ++ data

/-- `rw[71:64]` (R59). -/
def statusField (rw : ResponseWord) : BitVec 8 := rw.extractLsb' 64 8

/-- `rw[63:0]` (R59). -/
def dataField (rw : ResponseWord) : BitVec 64 := rw.extractLsb' 0 64

end Sys2Proof.Machine
end

