-- ==== Sys2Proof/Machine/Ops.lean ====
section
/-! DEFINITION. The shared operations: responding, raising a fault, reset, and taking the next event. -/

namespace Sys2Proof.Machine

/-- Put an engine state in place of the one there. -/
def setEngine (s : State) (e : Engine (preset s.variant)) : State := { s with engine := e }

/-- Put the events that are still to come in place of those there. -/
def setInput (s : State) (events : List Event) : State := { s with input := events }

/-- `respond(status, data)`: emit one response word (R59). -/
def respond (status : BitVec 8) (data : BitVec 64) (s : State) : State :=
  { s with output := s.output ++ [responseWord status data] }

/-- `raise <Fault>()` (spec/60_exceptions.md R136): the response `{code, 0}`, and nothing else of the state changes; no
vector, no saved context, no mode. There is nothing to return from (R137), so no return operation stands beside it. -/
def raise (f : Fault) (s : State) : State := respond (statusOfFault f) 0#64 s

/-- The words become unspecified and the cursor n+1 (R150): a fresh generation of the free value, log entry 2. -/
def loseWords (s : State) : State :=
  { s with engine := uninitializedEngine (preset s.variant) s.freeCount, freeCount := s.freeCount + 1 }

/-- The reset input between two commands (R150): no response; an engine that is Uninitialized already is left as it is,
so two resets in a row equal one. -/
def applyReset (s : State) : State := if uninitialized s.engine then s else loseWords s

/-- The reset input during a command (R151): the command is abandoned without a response, and whatever it wrote is
unspecified like all other words. -/
def abandonCommand (s : State) : State := loseWords s

/-- The next event and the state that waits for the ones after it; none when nothing has arrived (R56). -/
def nextEvent (s : State) : Option (Event × State) :=
  match s.input with
  | [] => none
  | ev :: rest => some (ev, setInput s rest)

/-- Present a command word to the command port as the next event. -/
def presentWord (cw : CommandWord) (s : State) : State := setInput s (.command cw :: s.input)

end Sys2Proof.Machine
end

