-- ==== Sys2Proof/Machine/Twist.lean ====
section
/-! DEFINITION. The TWIST micro-operation (spec/41_twist.md R85 to R95), which only EXTRACT starts. -/

namespace Sys2Proof.Machine

/-- `(i+1) mod n` (R41). -/
def nextIndex {p : Preset} (i : Fin p.n) : Fin p.n := ⟨(i.val + 1) % p.n, Nat.mod_lt _ i.pos⟩

/-- `(i+m) mod n` (R41). -/
def middleIndex {p : Preset} (i : Fin p.n) : Fin p.n := ⟨(i.val + p.m) % p.n, Nat.mod_lt _ i.pos⟩

/-- The combined word x: the upper part of `hi` above the lower part of `lo` (R87). -/
def combine (p : Preset) (hi lo : Word p.W) : Word p.W := (hi &&& p.upperMask) ||| (lo &&& p.lowerMask)

/-- The matrix step xA (R89): x shifted right by one, with a XORed in when x is odd. -/
def matrixStep (p : Preset) (x : Word p.W) : Word p.W :=
  if x.getLsbD 0 then (x >>> 1) ^^^ p.a else x >>> 1

/-- The new word of one body from its three reads (R88, R89). -/
def twistedWord (p : Preset) (self next middle : Word p.W) : Word p.W := middle ^^^ matrixStep p (combine p self next)

/-- Body i of the pass: the three reads on the array as it stands, then the write (R88). -/
def twistBody {p : Preset} (ws : WordArray p) (i : Fin p.n) : WordArray p :=
  writeWord ws i (twistedWord p (readWord ws i) (readWord ws (nextIndex i)) (readWord ws (middleIndex i)))

/-- The pass, sequential and in place (R90). -/
def twistWords {p : Preset} (ws : WordArray p) : WordArray p := forEachIndex twistBody ws

/-- TWIST: the pass, then `cursor <- 0` (R88, R91). -/
def twist {p : Preset} (e : Engine p) : Engine p where
  words := twistWords e.words
  cursor := ⟨0, by omega⟩

end Sys2Proof.Machine
end

