-- ==== Sys2Proof/Machine/Extract.lean ====
section
/-! DEFINITION. The EXTRACT command (spec/42_extract.md R100 to R117). -/

namespace Sys2Proof.Machine

/-- R103: an exhausted array is twisted first; otherwise nothing is written. -/
def twistIfExhausted {p : Preset} (e : Engine p) : Engine p := if exhausted e then twist e else e

/-- R104: the cursor is then in range, so that the read needs no bounds check (spec/20_memory.md R41). -/
theorem twistIfExhausted_cursor_lt {p : Preset} (hn : 0 < p.n) (e : Engine p) :
    (twistIfExhausted e).cursor.val < p.n := by
  unfold twistIfExhausted
  split
  · exact hn
  · rename_i h
    simpa [exhausted] using h

/-- R110: `cursor <- cursor + 1`. -/
def advance {p : Preset} (e : Engine p) (h : e.cursor.val < p.n) : Engine p :=
  { e with cursor := ⟨e.cursor.val + 1, by omega⟩ }

/-- EXTRACT (R100): the fault NOT_SEEDED while Uninitialized (R102); else the word under the cursor is read (R105),
tempered (R106 to R109) and returned (R111), and the cursor advances (R110). -/
def execExtract (s : State) : Host.Outcome State Fault Refusal :=
  if uninitialized s.engine then .next (raise .notSeeded s)
  else
    let e := twistIfExhausted s.engine
    have h : e.cursor.val < (preset s.variant).n := twistIfExhausted_cursor_lt (preset_n_pos s.variant) s.engine
    let y0 := readWord e.words ⟨e.cursor.val, h⟩
    .next (respond statusOk (dataOfWord (temper (preset s.variant) y0)) (setEngine s (advance e h)))

end Sys2Proof.Machine
end

