-- ==== Sys2Proof/Machine/Seed.lean ====
section
/-! DEFINITION. The SEED command (spec/40_seed.md R75 to R84). -/

namespace Sys2Proof.Machine

/-- One step of the seeding recurrence, `(f *_W (p XOR (p >> (W-2)))) +_W i` (R78). The mask is the word mask (R81, and
spec/90_conflicts.md C1). -/
def seedRecurrence (p : Preset) (previous : Word p.W) (i : Nat) : Word p.W :=
  p.f * (previous ^^^ (previous >>> (p.W - 2))) + BitVec.ofNat p.W i

/-- Word i of the seeded array: the reduced seed value at 0 (R77), then the recurrence from the word before (R78). -/
def seedWord (p : Preset) (s0 : Word p.W) : Nat → Word p.W
  | 0 => s0
  | i + 1 => seedRecurrence p (seedWord p s0 i) (i + 1)

/-- The seeded array: a full overwrite that reads nothing of the array before (R82). -/
def seedWords (p : Preset) (s0 : Word p.W) : WordArray p := tabulateWords (seedWord p s0)

/-- The engine after SEED: the seeded array, exhausted (R79). -/
def seedEngine (p : Preset) (operand : BitVec 64) : Engine p where
  words := seedWords p (seedValue p operand)
  cursor := ⟨p.n, by omega⟩

/-- SEED (R75): it always succeeds and answers OK (R80). -/
def execSeed (operand : BitVec 64) (s : State) : Host.Outcome State Fault Refusal :=
  .next (respond statusOk 0#64 (setEngine s (seedEngine (preset s.variant) operand)))

end Sys2Proof.Machine
end

