-- ==== Sys2Proof/Machine/Dispatch.lean ====
section
/-! DEFINITION. One arm per constructor of Instr. -/

namespace Sys2Proof.Machine

def exec (i : Instr) (s : State) : Host.Outcome State Fault Refusal :=
  match i with
  | .seed operand => Sys2Proof.Machine.execSeed operand s
  | .extract => Sys2Proof.Machine.execExtract s

end Sys2Proof.Machine
end

