-- ==== Sys2Proof/Machine/Step.lean ====
section
/-! DEFINITION. The step: one event, to its end (spec/20_memory.md R47, spec/30_encoding.md R55 and R56). -/

namespace Sys2Proof.Machine

/-- One step takes the next event. A reset takes effect (R150, R151); a command word is decoded (R65), before any state
is looked at (R138), and runs, or raises ILLEGAL_COMMAND (R131). With nothing at the inputs the block is idle and holds its
state (R147). -/
def step (s : State) : Host.Outcome State Fault Refusal :=
  match nextEvent s with
  | none => .next s
  | some (.reset, s') => .next (applyReset s')
  | some (.commandCutByReset _, s') => .next (abandonCommand s')
  | some (.command cw, s') =>
    match decode cw with
    | .ok i => exec i s'
    | .error _ => .next (raise .illegalCommand s')

/-- `s` with the command word of the bits `w` (numbered as spec/opcode_table.json numbers them) presented to the command
port as the next event: commands arrive on a port and are not fetched from a memory (R27, R45), log entry 4. -/
def State.withFetchWord (s : State) (nbits w : Nat) : State := presentWord (wordOfTable nbits w) s

end Sys2Proof.Machine
end

