-- ==== Sys2Proof/Machine/Assembly.lean ====
section
/-! DEFINITION. A command sequence in the syntax of spec/30_encoding.md R69, as a list of lines, with the
pseudo-instructions of R70. Text itself (spacing, decimal digits, comments) is not modelled. -/

namespace Sys2Proof.Machine

/-- One line of a command sequence (R69). -/
inductive Line where
  /-- `SEED <value>`. -/
  | seed (value : BitVec 64)
  /-- `EXTRACT`. -/
  | extract
  /-- `RESET`: the reset event, no command word. -/
  | reset
  /-- `RAW <18 hex digits>`: any command word. -/
  | raw (cw : CommandWord)
  deriving DecidableEq, Repr

/-- What a line sends to the block. -/
def Line.event : Line → Event
  | .seed value => .command (encode (.seed value))
  | .extract => .command (encode .extract)
  | .reset => .reset
  | .raw cw => .command cw

/-- `RESEED <seed>` (R70). -/
def reseed (value : BitVec 64) : List Line := [.seed value]

/-- `SKIP k` (R70). -/
def skip (k : Nat) : List Line := List.replicate k .extract

/-- `CONSTRUCT <variant>, <seed>` (R70, spec/70_reset_and_hazards.md R154): an instance of that variant to which RESET and
SEED arrive next. -/
def construct (v : Variant) (value : BitVec 64) : State :=
  { State.resetOf v with input := [Line.reset.event, (Line.seed value).event] }

end Sys2Proof.Machine
end

