-- ==== Sys2Proof/Machine/Facade.lean ====
section
/-! DEFINITION. HOST SOFTWARE, outside the block (spec/00_scope.md R6, spec/43_facade.md): the operations of the Facade
whose formulas the spec gives, as computations over EXTRACT responses. The block uses nothing of this file. Choice, coin,
dice and deck draw have no formula (spec/91_not_in_source.md N12) and are left out. -/

namespace Sys2Proof.Machine

/-- Why a host operation gives no result. -/
inductive HostError where
  /-- InvalidRange (R128): a bounded operation with `a >= b`. -/
  | invalidRange
  /-- The block answered the EXTRACT with a status other than OK: the host did not seed first. -/
  | noWord
  deriving DecidableEq, Repr

/-- Issue one command and read its response (spec/30_encoding.md R55). -/
def transact (i : Instr) (s : State) : Option ResponseWord × State :=
  match step (presentWord (encode i) s) with
  | .next t => (t.output.getLast?, t)
  | .fault _ => (none, s)
  | .refused _ => (none, s)

/-- `next()` of R118: the data field of a successful EXTRACT, as a number. -/
def nextNumber (s : State) : Except HostError Nat × State :=
  match transact .extract s with
  | (some rw, t) => if statusField rw = statusOk then (.ok (dataField rw).toNat, t) else (.error .noWord, t)
  | (none, t) => (.error .noWord, t)

/-- `next()` followed by a pure function of the number. -/
def mapNext {α : Type} (g : Nat → α) (s : State) : Except HostError α × State :=
  match nextNumber s with
  | (.ok w, t) => (.ok (g w), t)
  | (.error e, t) => (.error e, t)

/-- Uniform float (R119): `next() / 2^W`. The format and the rounding of the division are the caller's parameter. -/
def uniformFloat {α : Type} (divide : Nat → Nat → α) (s : State) : Except HostError α × State :=
  mapNext (fun w => divide w (2 ^ (preset s.variant).W)) s

/-- Bounded integer in `[a, b]` (R120): `next() mod (b - a + 1) + a`, InvalidRange before any EXTRACT when `a >= b`. -/
def randIntInclusive (a b : Int) (s : State) : Except HostError Int × State :=
  if a ≥ b then (.error .invalidRange, s) else mapNext (fun w => (w : Int) % (b - a + 1) + a) s

/-- Bounded integer in `[a, b)` (R121). -/
def randIntExclusive (a b : Int) (s : State) : Except HostError Int × State :=
  if a ≥ b then (.error .invalidRange, s) else mapNext (fun w => (w : Int) % (b - a) + a) s

/-- Sampling with replacement (R123, in the reading it gives): `k` inclusive bounded integers in output order. DESIGN
CHOICE (log entry 7): a sample of size 0 draws nothing and does not check its range, so `a >= b` raises no InvalidRange
there; R123 and R128 leave that open. -/
def sample (a b : Int) : Nat → State → Except HostError (List Int) × State
  | 0, s => (.ok [], s)
  | k + 1, s =>
    match randIntInclusive a b s with
    | (.error e, t) => (.error e, t)
    | (.ok x, t) =>
      match sample a b k t with
      | (.error e, u) => (.error e, u)
      | (.ok xs, u) => (.ok (x :: xs), u)

/-- Swap positions `i` and `j` of a list. -/
def swapAt {α : Type} (xs : List α) (i j : Nat) : List α :=
  match xs[i]?, xs[j]? with
  | some x, some y => (xs.set i y).set j x
  | _, _ => xs

/-- `k` random swaps, each with two indices drawn one after the other in `[0, L-1]` (R125). -/
def shuffleRounds {α : Type} : Nat → List α → State → Except HostError (List α) × State
  | 0, xs, s => (.ok xs, s)
  | k + 1, xs, s =>
    match randIntInclusive 0 (xs.length - 1) s with
    | (.error e, t) => (.error e, t)
    | (.ok i, t) =>
      match randIntInclusive 0 (xs.length - 1) t with
      | (.error e, u) => (.error e, u)
      | (.ok j, u) => shuffleRounds k (swapAt xs i.toNat j.toNat) u

/-- Shuffle (R125): `10*L` swaps. DESIGN CHOICE for the two lengths the spec leaves open (spec/91_not_in_source.md N12,
log entry 7): with `L = 0` there is no swap, so the empty list comes back with no EXTRACT and no error; with `L = 1` the
first draw is refused with InvalidRange, since R120 refuses `[0, 0]`. -/
def shuffle {α : Type} (xs : List α) (s : State) : Except HostError (List α) × State :=
  shuffleRounds (10 * xs.length) xs s

end Sys2Proof.Machine
end

