-- ==== Sys2Proof/Machine/TwistForms.lean ====
section
/-! DEFINITION. What spec/41_twist.md section 3 sets beside the pass of R88: the three-range form (R95), the
double-buffered pass that is wrong (R96), and the sequence of words over successive passes (R94). The machine uses none of
these; statements compare `twistWords` with them. -/

namespace Sys2Proof.Machine

/-- Rounds 0 to count-1 of a loop, in increasing order (R15). -/
def rounds {p : Preset} :
    (count : Nat) → ((j : Nat) → j < count → WordArray p → WordArray p) → WordArray p → WordArray p
  | 0, _, ws => ws
  | k + 1, body, ws => body k (Nat.lt_succ_self k) (rounds k (fun j h => body j (Nat.lt_succ_of_lt h)) ws)

/-- First loop of R95, i = 0 to n-m-1. -/
def twistRangeLow {p : Preset} (h1 : 1 ≤ p.m) (ws : WordArray p) : WordArray p :=
  rounds (p.n - p.m) (fun i hi ws =>
    writeWord ws ⟨i, by omega⟩
      (twistedWord p (readWord ws ⟨i, by omega⟩) (readWord ws ⟨i + 1, by omega⟩) (readWord ws ⟨i + p.m, by omega⟩))) ws

/-- Second loop of R95, i = n-m to n-2; round j is i = n-m+j, so that i+m-n = j. -/
def twistRangeHigh {p : Preset} (h2 : p.m < p.n) (ws : WordArray p) : WordArray p :=
  rounds (p.m - 1) (fun j hj ws =>
    writeWord ws ⟨p.n - p.m + j, by omega⟩
      (twistedWord p (readWord ws ⟨p.n - p.m + j, by omega⟩) (readWord ws ⟨p.n - p.m + j + 1, by omega⟩)
        (readWord ws ⟨j, by omega⟩))) ws

/-- Last step of R95, i = n-1. -/
def twistLast {p : Preset} (h2 : p.m < p.n) (ws : WordArray p) : WordArray p :=
  writeWord ws ⟨p.n - 1, by omega⟩
    (twistedWord p (readWord ws ⟨p.n - 1, by omega⟩) (readWord ws ⟨0, by omega⟩) (readWord ws ⟨p.m - 1, by omega⟩))

/-- The three loops of R95 run one after the other. -/
def twistThreeRanges {p : Preset} (h1 : 1 ≤ p.m) (h2 : p.m < p.n) (ws : WordArray p) : WordArray p :=
  twistLast h2 (twistRangeHigh h2 (twistRangeLow h1 ws))

/-- The WRONG pass of R96: every read sees a copy of the old array. -/
def doubleBufferedWords {p : Preset} (old : WordArray p) : WordArray p :=
  forEachIndex (fun ws i => writeWord ws i
    (twistedWord p (readWord old i) (readWord old (nextIndex i)) (readWord old (middleIndex i)))) old

/-- The array after `j` passes, A_j of spec/42_extract.md R114. -/
def twistTimes {p : Preset} : Nat → WordArray p → WordArray p
  | 0, ws => ws
  | j + 1, ws => twistWords (twistTimes j ws)

/-- `s[k]` of R94: the words of successive arrays as one sequence. -/
def sequenceWord {p : Preset} (hn : 0 < p.n) (ws : WordArray p) (k : Nat) : Word p.W :=
  readWord (twistTimes (k / p.n) ws) ⟨k % p.n, Nat.mod_lt k hn⟩

end Sys2Proof.Machine
end

