-- ==== Sys2Proof/Safety.lean ====
section
/-! DEFINITION. The terms the statements use: delivering a list of events, what a state in a run looks like, and when a
step is safe. -/

namespace Sys2Proof.Machine

/-- Run a list of events on `s`, one step each; `output` of the result is the responses to these events alone. -/
def deliver (s : State) (es : List Event) : Host.Outcome State Fault Refusal :=
  core.run es.length { s with input := es, output := [] }

/-- A command that is carried to its end, and so gets a response (R55, R151). -/
def Event.isAnswered : Event → Bool
  | .reset => false
  | .command _ => true
  | .commandCutByReset _ => false

/-- An event in which the reset input is active (R150, R151). -/
def Event.isReset : Event → Bool
  | .reset => true
  | .command _ => false
  | .commandCutByReset _ => true

/-- A SEED, executed. -/
def Event.isSeed : Event → Bool
  | .reset => false
  | .command cw => opcodeField cw == 0x01#8
  | .commandCutByReset _ => false

/-- Every response emitted so far is one that exists (R71). -/
def ResponsesLegal (s : State) : Prop := ∀ rw ∈ s.output, legalResponse (preset s.variant) rw = true

/-- A Seeded engine holds the array of some seed after some number j of passes. Before the first pass it is exhausted, so
that no seeded word is ever returned; after one, between commands, its cursor is in `1 .. n` (R25, R26, R114). -/
def OnSeedSequence (s : State) : Prop :=
  uninitialized s.engine = true ∨
    ∃ (s0 : Word (preset s.variant).W) (j : Nat),
      s.engine.words = twistTimes j (seedWords (preset s.variant) s0) ∧
        s.engine.cursor.val ≤ (preset s.variant).n ∧
        (j = 0 → s.engine.cursor.val = (preset s.variant).n) ∧ 1 ≤ s.engine.cursor.val

/-- The invariant of every run. -/
structure State.Inv (s : State) : Prop where
  responsesLegal : ResponsesLegal s
  onSeedSequence : OnSeedSequence s

/-- A step is safe when it does not stop the machine. -/
def StepSafe (s : State) : Prop := ∃ t, step s = .next t

end Sys2Proof.Machine
end

