-- ==== Sys2Proof/Certificates/Slice0/Obligations.lean ====
section
/-! DEFINITION. The statements for the provers. A statement that quantifies over a state quantifies over its variant, so it
holds of both presets; one that quantifies over a table `p` holds of every table that meets its bounds, the two presets
among them. `next t` means the machine goes on in state `t`. -/

open Sys2Proof Sys2Proof.Machine

/-! ## Configuration and encoding -/

/-- R8, R9 and R133: the two tables and their masks, and no instance of another width. The nine constants of each table
are the spec's general-knowledge defaults (log entry 3). -/
def Obligations.PresetTablesAndMasks : Prop :=
  (preset .mt32).W = 32 ∧ (preset .mt32).n = 624 ∧ (preset .mt32).m = 397 ∧ (preset .mt32).r = 31 ∧
  (preset .mt32).a = 0x9908B0DF#32 ∧ (preset .mt32).f = 1812433253#32 ∧
  (preset .mt32).lowerMask = 0x7FFFFFFF#32 ∧ (preset .mt32).upperMask = 0x80000000#32 ∧
  (preset .mt64).W = 64 ∧ (preset .mt64).n = 312 ∧ (preset .mt64).m = 156 ∧ (preset .mt64).r = 31 ∧
  (preset .mt64).a = 0xB5026F5AA96619E9#64 ∧ (preset .mt64).f = 6364136223846793005#64 ∧
  (preset .mt64).lowerMask = 0x000000007FFFFFFF#64 ∧ (preset .mt64).upperMask = 0xFFFFFFFF80000000#64 ∧
  (∀ v, (preset v).supported = true ∧ (preset v).wellFormed = true) ∧
  ∀ width, (variantOfWidth width).isSome = true ↔ (width = 32 ∨ width = 64)

/-- Words of spec/95_test_vectors.md section 2.6, written out from R57, R63 and R64. -/
def Obligations.WrittenOutWordsDecode : Prop :=
  decode 0x010000000000000000#72 = .ok (.seed 0#64) ∧
  decode 0x010000000000001571#72 = .ok (.seed 5489#64) ∧
  decode 0x01FFFFFFFFFFFFFFFF#72 = .ok (.seed 0xFFFFFFFFFFFFFFFF#64) ∧
  decode 0x020000000000000000#72 = .ok .extract ∧
  decode 0x020000000000000001#72 = .error .extractOperand ∧
  decode 0x028000000000000000#72 = .error .extractOperand ∧
  decode 0x000000000000001571#72 = .error .reservedOpcode ∧
  decode 0x810000000000000000#72 = .error .reservedOpcode

/-- R65: the tests of the decoder in their order, read off the word as a number; decoding an encoded command gives it back,
with every operand; encoding a decoded word gives that back; two legal words that differ decode to commands that differ. -/
def Obligations.DecoderIsTheOpcodeMap : Prop :=
  (∀ cw : CommandWord,
    (cw.toNat / 2 ^ 64 = 1 → decode cw = .ok (.seed (BitVec.ofNat 64 (cw.toNat % 2 ^ 64)))) ∧
    (cw.toNat / 2 ^ 64 = 2 → cw.toNat % 2 ^ 64 = 0 → decode cw = .ok .extract) ∧
    (cw.toNat / 2 ^ 64 = 2 → cw.toNat % 2 ^ 64 ≠ 0 → decode cw = .error .extractOperand) ∧
    (cw.toNat / 2 ^ 64 ≠ 1 → cw.toNat / 2 ^ 64 ≠ 2 → decode cw = .error .reservedOpcode)) ∧
  (∀ i : Instr, decode (encode i) = .ok i) ∧
  (∀ (cw : CommandWord) (i : Instr), decode cw = .ok i → encode i = cw) ∧
  ∀ (cw cw' : CommandWord) (i i' : Instr), decode cw = .ok i → decode cw' = .ok i' → cw ≠ cw' → i ≠ i'

/-- R63 and R64: the mask and match numbers select the two commands; EXTRACT has exactly one encoding. -/
def Obligations.MasksSelectTheCommands : Prop :=
  (∀ cw : CommandWord, (∃ v, decode cw = .ok (.seed v)) ↔
    cw &&& 0xFF0000000000000000#72 = 0x010000000000000000#72) ∧
  (∀ cw : CommandWord, decode cw = .ok .extract ↔
    cw &&& 0xFFFFFFFFFFFFFFFFFF#72 = 0x020000000000000000#72) ∧
  (∀ v : BitVec 64, decode (BitVec.ofNat 72 (2 ^ 64 + v.toNat)) = .ok (.seed v)) ∧
  decode 0x010000000000001571#72 = .ok (.seed 5489#64) ∧
  (∀ cw : CommandWord, decode cw = .ok .extract ↔ cw = 0x020000000000000000#72)

/-- R72: a host presents an integer v as `v mod 2^64`, and the engine then uses `v mod 2^W`. -/
def Obligations.PresentedSeedIsReduced : Prop :=
  ∀ (v : Variant) (z : Int),
    ((presentSeed z).toNat : Int) = z % 2 ^ 64 ∧ ((seedValue (preset v) (presentSeed z)).toNat : Int) = z % 2 ^ (preset v).W

/-! ## Reset -/

/-- R34, R28. What the words hold is not stated by the spec: that they are the free value is log entry 2. -/
def Obligations.ResetLeavesUninitialized : Prop :=
  ∀ v : Variant,
    (State.resetOf v).variant = v ∧ (State.resetOf v).engine.cursor.val = (preset v).n + 1 ∧
    (∀ i, readWord (State.resetOf v).engine.words i = Config.unspecifiedWord (preset v).W 0 i.val) ∧
    uninitialized (State.resetOf v).engine = true ∧ exhausted (State.resetOf v).engine = true ∧
    (State.resetOf v).input = [] ∧ (State.resetOf v).output = [] ∧ State.reset = State.resetOf instanceVariant

/-- R150 (and R26, R34): the reset event from any state. The words of a Seeded engine become a fresh generation of the
free value (log entry 2). -/
def Obligations.ResetEventMakesUninitialized : Prop :=
  ∀ (s : State) (rest : List Event), s.input = .reset :: rest →
    ∃ (e : Engine (preset s.variant)) (c : Nat),
      step s = .next { s with engine := e, input := rest, freeCount := c } ∧
      e.cursor.val = (preset s.variant).n + 1 ∧
      (s.engine.cursor.val ≤ (preset s.variant).n →
        c = s.freeCount + 1 ∧ ∀ i, readWord e.words i = Config.unspecifiedWord (preset s.variant).W s.freeCount i.val) ∧
      (s.engine.cursor.val = (preset s.variant).n + 1 → c = s.freeCount ∧ e = s.engine)

/-- R150: "two resets in a row equal one". -/
def Obligations.TwoResetsEqualOne : Prop :=
  ∀ (s : State) (es : List Event), deliver s (.reset :: .reset :: es) = deliver s (.reset :: es)

/-- R151: a reset during a command, whatever the command, gives no response and leaves Uninitialized with unspecified
words. -/
def Obligations.ResetDuringCommandAbandonsIt : Prop :=
  ∀ (s : State) (cw : CommandWord) (rest : List Event), s.input = .commandCutByReset cw :: rest →
    ∃ e : Engine (preset s.variant),
      step s = .next { s with engine := e, input := rest, freeCount := s.freeCount + 1 } ∧
      e.cursor.val = (preset s.variant).n + 1 ∧
      ∀ i, readWord e.words i = Config.unspecifiedWord (preset s.variant).W s.freeCount i.val

/-! ## SEED -/

/-- R76 to R80: the whole effect of SEED, in any engine state, in numbers, with its frame: only the engine and one response
change. -/
def Obligations.SeedFillsTheArray : Prop :=
  ∀ (operand : BitVec 64) (s : State), ∃ e : Engine (preset s.variant),
    exec (.seed operand) s = .next { s with engine := e, output := s.output ++ [0x000000000000000000#72] } ∧
    e.cursor.val = (preset s.variant).n ∧ uninitialized e = false ∧ exhausted e = true ∧
    (∀ i : Fin (preset s.variant).n, i.val = 0 →
      (readWord e.words i).toNat = operand.toNat % 2 ^ (preset s.variant).W) ∧
    ∀ i j : Fin (preset s.variant).n, j.val + 1 = i.val →
      (readWord e.words i).toNat =
        ((preset s.variant).f.toNat *
            ((readWord e.words j).toNat ^^^ ((readWord e.words j).toNat / 2 ^ ((preset s.variant).W - 2))) + i.val) %
          2 ^ (preset s.variant).W

/-- R82: no word of the array before and not the cursor enters the state after SEED; the operand enters through its value
modulo `2^W`. -/
def Obligations.SeedForgetsThePast : Prop :=
  ∀ (s : State) (e : Engine (preset s.variant)) (operand operand' : BitVec 64),
    operand.toNat % 2 ^ (preset s.variant).W = operand'.toNat % 2 ^ (preset s.variant).W →
    exec (.seed operand') { s with engine := e } = exec (.seed operand) s

/-- R98, its sentence on SEED: `state[1]` and `state[2]` are never both zero after it. -/
def Obligations.SeedNeverMakesTheZeroArray : Prop :=
  ∀ (v : Variant) (s0 : Word (preset v).W) (i j : Fin (preset v).n), i.val = 1 → j.val = 2 →
    ¬ (readWord (seedWords (preset v) s0) i = 0#(preset v).W ∧ readWord (seedWords (preset v) s0) j = 0#(preset v).W)

/-! ## TWIST -/

/-- R87: the combined word has the bits from r up of one word above the bits below r of the other; OR, XOR and addition of
the two parts agree. -/
def Obligations.CombineTakesUpperAndLowerBits : Prop :=
  ∀ (p : Preset), p.r < p.W → ∀ hi lo : Word p.W,
    (∀ k, k < p.W → (combine p hi lo).getLsbD k = if k < p.r then lo.getLsbD k else hi.getLsbD k) ∧
    (combine p hi lo).toNat = hi.toNat / 2 ^ p.r * 2 ^ p.r + lo.toNat % 2 ^ p.r ∧
    combine p hi lo = (hi &&& p.upperMask) ^^^ (lo &&& p.lowerMask) ∧
    combine p hi lo = (hi &&& p.upperMask) + (lo &&& p.lowerMask)

/-- R89: xA as a number; the new word of a body; and the feedback bit is bit 0 of the next word. -/
def Obligations.MatrixStepHalvesAndFeedsBack : Prop :=
  ∀ (p : Preset), 1 ≤ p.r → p.r < p.W →
    (∀ x : Word p.W, (matrixStep p x).toNat = x.toNat / 2 ^^^ (if x.toNat % 2 = 1 then p.a.toNat else 0)) ∧
    (∀ self next middle : Word p.W,
      twistedWord p self next middle = middle ^^^ matrixStep p (combine p self next) ∧
      (combine p self next).getLsbD 0 = next.getLsbD 0)

/-- R93: the matrix step is linear over the field of two elements. -/
def Obligations.MatrixStepIsLinear : Prop :=
  ∀ (p : Preset) (x y : Word p.W), matrixStep p (x ^^^ y) = matrixStep p x ^^^ matrixStep p y

/-- R88, R90: which array each of the three reads of body i sees. -/
def Obligations.TwistReadsOldThenNewWords : Prop :=
  ∀ (p : Preset) (_ : 1 ≤ p.m) (hm : p.m < p.n) (old : WordArray p) (i : Fin p.n),
    readWord (twistWords old) i =
      twistedWord p (readWord old i)
        (if h : i.val + 1 < p.n then readWord old ⟨i.val + 1, h⟩ else readWord (twistWords old) ⟨0, i.pos⟩)
        (if h : i.val + p.m < p.n then readWord old ⟨i.val + p.m, h⟩
         else readWord (twistWords old) ⟨i.val + p.m - p.n, by omega⟩)

/-- R95: the pass equals the three loops run one after the other. -/
def Obligations.TwistIsTheThreeRangePass : Prop :=
  ∀ (p : Preset) (h1 : 1 ≤ p.m) (h2 : p.m < p.n) (ws : WordArray p), twistThreeRanges h1 h2 ws = twistWords ws

/-- R96: a double-buffered pass agrees on words 0 to n-m-1, and on word n-m exactly when word 0 did not change. -/
def Obligations.DoubleBufferedPassDiffers : Prop :=
  ∀ (p : Preset) (_ : 2 ≤ p.m) (hm : p.m < p.n) (old : WordArray p),
    (∀ i : Fin p.n, i.val < p.n - p.m → readWord (doubleBufferedWords old) i = readWord (twistWords old) i) ∧
    (readWord (doubleBufferedWords old) ⟨p.n - p.m, by omega⟩ = readWord (twistWords old) ⟨p.n - p.m, by omega⟩ ↔
      readWord (twistWords old) ⟨0, by omega⟩ = readWord old ⟨0, by omega⟩)

/-- R97: the low r bits of word 0 are read by no body of the pass. -/
def Obligations.TwistIgnoresLowBitsOfWordZero : Prop :=
  ∀ (p : Preset), 1 ≤ p.m → p.m < p.n → ∀ old old' : WordArray p,
    (∀ i : Fin p.n, i.val ≠ 0 → readWord old i = readWord old' i) →
    (∀ i : Fin p.n, i.val = 0 → readWord old i &&& p.upperMask = readWord old' i &&& p.upperMask) →
    twistWords old = twistWords old'

/-- R98, its first sentence: from the zero array (the low r bits of word 0 aside) every later array is zero and every later
output is zero. -/
def Obligations.ZeroArrayStaysZero : Prop :=
  ∀ (v : Variant) (old : WordArray (preset v)),
    (∀ i : Fin (preset v).n, i.val ≠ 0 → readWord old i = 0#(preset v).W) →
    (∀ i : Fin (preset v).n, i.val = 0 → readWord old i &&& (preset v).upperMask = 0#(preset v).W) →
    ∀ (j : Nat) (i : Fin (preset v).n),
      readWord (twistTimes (j + 1) old) i = 0#(preset v).W ∧
      temper (preset v) (readWord (twistTimes (j + 1) old) i) = 0#(preset v).W

/-- R94: successive passes continue one linear recurrence. -/
def Obligations.PassesContinueOneRecurrence : Prop :=
  ∀ (p : Preset) (hn : 0 < p.n), 1 ≤ p.m → p.m < p.n → ∀ (ws : WordArray p) (k : Nat),
    sequenceWord hn ws (k + p.n) =
      sequenceWord hn ws (k + p.m) ^^^
        matrixStep p ((sequenceWord hn ws k &&& p.upperMask) ||| (sequenceWord hn ws (k + 1) &&& p.lowerMask))

/-! ## Tempering -/

/-- R106 to R109: the four stages as numbers, what each leaves alone, their parameters in the two presets, and that TEMPER
is the four in order (R112). Stages 2 and 3 stand without truncation, since the mask drops what leaves the word (R16).
The parameters of the two presets are the spec's general-knowledge defaults (R8), PRESUMED in log entry 3. -/
def Obligations.TemperStagesAsNumbers : Prop :=
  (∀ (p : Preset) (y : Word p.W),
    (temper1 p y).toNat = y.toNat ^^^ (y.toNat / 2 ^ p.u &&& p.d.toNat) ∧
    (temper2 p y).toNat = y.toNat ^^^ (y.toNat * 2 ^ p.s &&& p.b.toNat) ∧
    (temper3 p y).toNat = y.toNat ^^^ (y.toNat * 2 ^ p.t &&& p.c.toNat) ∧
    (temper4 p y).toNat = y.toNat ^^^ y.toNat / 2 ^ p.l ∧
    temper p y = temper4 p (temper3 p (temper2 p (temper1 p y))) ∧
    (∀ k, k < p.W → p.W ≤ k + p.u → (temper1 p y).getLsbD k = y.getLsbD k) ∧
    (∀ k, k < p.s → (temper2 p y).getLsbD k = y.getLsbD k) ∧
    (∀ k, k < p.t → (temper3 p y).getLsbD k = y.getLsbD k) ∧
    (∀ k, k < p.W → p.W ≤ k + p.l → (temper4 p y).getLsbD k = y.getLsbD k)) ∧
  (preset .mt32).u = 11 ∧ (preset .mt32).d = 0xFFFFFFFF#32 ∧ (preset .mt32).s = 7 ∧ (preset .mt32).b = 0x9D2C5680#32 ∧
  (preset .mt32).t = 15 ∧ (preset .mt32).c = 0xEFC60000#32 ∧ (preset .mt32).l = 18 ∧
  (preset .mt64).u = 29 ∧ (preset .mt64).d = 0x5555555555555555#64 ∧ (preset .mt64).s = 17 ∧
  (preset .mt64).b = 0x71D67FFFEDA60000#64 ∧ (preset .mt64).t = 37 ∧ (preset .mt64).c = 0xFFF7EEE000000000#64 ∧
  (preset .mt64).l = 43

/-- R113: TEMPER is linear and a bijection, in every table whose shifts are at least 1. That the two presets are such
tables rests on their presumed values (R8, log entry 3). -/
def Obligations.TemperIsALinearBijection : Prop :=
  (∀ (p : Preset), 1 ≤ p.u → 1 ≤ p.s → 1 ≤ p.t → 1 ≤ p.l →
    temper p 0#p.W = 0#p.W ∧ (∀ y y' : Word p.W, temper p (y ^^^ y') = temper p y ^^^ temper p y') ∧
    Function.Bijective (temper p)) ∧
  ∀ v, 1 ≤ (preset v).u ∧ 1 ≤ (preset v).s ∧ 1 ≤ (preset v).t ∧ 1 ≤ (preset v).l

/-! ## EXTRACT -/

/-- R105, R110, R111: EXTRACT in the middle of a pass. It writes no state word; the whole next state is given, so the rest
is its frame. -/
def Obligations.ExtractReturnsTheWordUnderTheCursor : Prop :=
  ∀ (s : State) (h : s.engine.cursor.val < (preset s.variant).n),
    exec .extract s =
      .next { s with
        engine := { words := s.engine.words, cursor := ⟨s.engine.cursor.val + 1, by omega⟩ }
        output := s.output ++
          [BitVec.ofNat 72 (temper (preset s.variant) (readWord s.engine.words ⟨s.engine.cursor.val, h⟩)).toNat] } ∧
    (temper (preset s.variant) (readWord s.engine.words ⟨s.engine.cursor.val, h⟩)).toNat < 2 ^ (preset s.variant).W

/-- R103 (and R91): EXTRACT of an exhausted engine runs one TWIST to its end and then returns the new word 0; an EXTRACT of
an engine that is not exhausted writes no state word. -/
def Obligations.ExtractTwistsExactlyWhenExhausted : Prop :=
  (∀ s : State, s.engine.cursor.val = (preset s.variant).n →
    exec .extract s =
      .next { s with
        engine := { words := twistWords s.engine.words, cursor := ⟨1, by omega⟩ }
        output := s.output ++
          [BitVec.ofNat 72
            (temper (preset s.variant)
              (readWord (twistWords s.engine.words) ⟨0, preset_n_pos s.variant⟩)).toNat] }) ∧
  ∀ s : State, s.engine.cursor.val < (preset s.variant).n →
    ∃ (e : Engine (preset s.variant)) (out : List ResponseWord),
      exec .extract s = .next { s with engine := e, output := out } ∧ e.words = s.engine.words

/-- R102, R132, R136: EXTRACT while Uninitialized answers `{0x02, 0}` and changes nothing else. -/
def Obligations.ExtractBeforeSeedRaisesNotSeeded : Prop :=
  ∀ s : State, s.engine.cursor.val = (preset s.variant).n + 1 →
    exec .extract s = .next { s with output := s.output ++ [0x020000000000000000#72] }

/-! ## The step -/

/-- The step on a command word that decodes is its meaning on the state that waits for the events after it (R55, R65). -/
def Obligations.StepRunsTheDecodedCommand : Prop :=
  (∀ (s : State) (cw : CommandWord) (rest : List Event) (i : Instr),
    s.input = .command cw :: rest → decode cw = .ok i → step s = exec i { s with input := rest }) ∧
  ∀ (s : State) (w : Nat) (i : Instr), decodeTableWord 72 w = some i → step (s.withFetchWord 72 w) = exec i s

/-- R66, R131, R136: a word that is no command answers `{0x01, 0}` and changes nothing else, in any engine state. -/
def Obligations.IllegalWordRaisesIllegalCommand : Prop :=
  ∀ (s : State) (cw : CommandWord) (rest : List Event), s.input = .command cw :: rest →
    cw.toNat / 2 ^ 64 ≠ 1 → (cw.toNat / 2 ^ 64 = 2 → cw.toNat % 2 ^ 64 ≠ 0) →
    step s = .next { s with input := rest, output := s.output ++ [0x010000000000000000#72] }

/-- R140, R138, R71: which status each command word is answered with, in each engine state. A status other than OK comes
with zero data. -/
def Obligations.StatusOfEveryCommand : Prop :=
  ∀ (s : State) (cw : CommandWord) (rest : List Event), s.input = .command cw :: rest →
    ∃ (t : State) (data : BitVec 64), step s = .next t ∧ t.input = rest ∧
      t.output = s.output ++
        [BitVec.ofNat 72
          ((if cw.toNat / 2 ^ 64 = 1 then 0
            else if cw = 0x020000000000000000#72 then
              (if s.engine.cursor.val = (preset s.variant).n + 1 then 2 else 0)
            else 1) * 2 ^ 64 + data.toNat)] ∧
      data.toNat < 2 ^ (preset s.variant).W ∧
      (cw ≠ 0x020000000000000000#72 → data = 0#64) ∧
      (s.engine.cursor.val = (preset s.variant).n + 1 → data = 0#64)

/-- R19, R162: the step function is total; no state stops the machine. With nothing at its inputs the block holds its state
(R147; that an idle step exists is log entry 4). -/
def Obligations.NoStepStops : Prop :=
  (∀ s : State, StepSafe s) ∧ ∀ s : State, s.input = [] → step s = .next s

/-- R7, R30: no step changes the variant, and so no constant. -/
def Obligations.VariantNeverChanges : Prop := ∀ s t : State, step s = .next t → t.variant = s.variant

/-- R25, R33: only reset makes the engine Uninitialized, and only SEED ends that. -/
def Obligations.OnlyResetEntersAndOnlySeedLeaves : Prop :=
  ∀ s t : State, step s = .next t →
    (uninitialized s.engine = false → uninitialized t.engine = true →
      ∃ ev rest, s.input = ev :: rest ∧ ev.isReset = true) ∧
    (uninitialized s.engine = true → uninitialized t.engine = false →
      ∃ ev rest, s.input = ev :: rest ∧ ev.isSeed = true)

/-! ## Invariants -/

/-- The invariant holds after reset, in both variants. -/
def Obligations.ResetMeetsTheInvariant : Prop := (∀ v, (State.resetOf v).Inv) ∧ State.reset.Inv

/-- Every step keeps it, from every state that has it. -/
def Obligations.EveryStepKeepsTheInvariant : Prop := ∀ s t : State, s.Inv → step s = .next t → t.Inv

/-! ## Runs -/

/-- R55, R56: as many responses as commands carried to their end, and the run never stops. -/
def Obligations.OneResponsePerCommand : Prop :=
  ∀ (s : State) (es : List Event), ∃ t : State,
    deliver s es = .next t ∧ t.input = [] ∧ t.output.length = es.countP Event.isAnswered

/-- R137: after a faulting command the machine goes on as if it had not been sent; only its response is there. -/
def Obligations.FaultsAreNotSticky : Prop :=
  ∀ (s : State) (es : List Event), ∃ t : State, deliver s es = .next t ∧
    (∀ (cw : CommandWord) (e : IllegalWord), decode cw = .error e →
      deliver s (.command cw :: es) = .next { t with output := 0x010000000000000000#72 :: t.output }) ∧
    (s.engine.cursor.val = (preset s.variant).n + 1 →
      deliver s (.command (encode .extract) :: es) = .next { t with output := 0x020000000000000000#72 :: t.output })

/-- R35: what the words hold while Uninitialized, and which free values come later, influences no response to any events. -/
def Obligations.UnspecifiedWordsAreNeverSeen : Prop :=
  ∀ (v : Variant) (e e' : Engine (preset v)) (c c' : Nat) (es : List Event),
    uninitialized e = true → uninitialized e' = true →
    ∃ t t' : State,
      deliver { variant := v, engine := e, input := [], output := [], freeCount := c } es = .next t ∧
      deliver { variant := v, engine := e', input := [], output := [], freeCount := c' } es = .next t' ∧
      t.output = t'.output

/-- R114 and R94: the whole response sequence of a SEED and the EXTRACTs after it, and the state they leave, from any
state. -/
def Obligations.OutputSequenceAfterSeed : Prop :=
  ∀ (s : State) (operand : BitVec 64) (k : Nat),
    ∃ e : Engine (preset s.variant),
      deliver s (.command (encode (.seed operand)) :: List.replicate (k + 1) (.command (encode .extract))) =
        .next { s with
          engine := e
          input := []
          output := 0#72 :: (List.range (k + 1)).map fun j =>
            BitVec.ofNat 72 (temper (preset s.variant)
              (sequenceWord (preset_n_pos s.variant) (seedWords (preset s.variant) (seedValue (preset s.variant) operand))
                ((preset s.variant).n + j))).toNat } ∧
      e.words = twistTimes (k / (preset s.variant).n + 1)
        (seedWords (preset s.variant) (seedValue (preset s.variant) operand)) ∧
      e.cursor.val = k % (preset s.variant).n + 1

/-- R115: n EXTRACTs after a SEED hold exactly one TWIST and leave the engine exhausted; one more runs the second. -/
def Obligations.OneTwistInTheFirstPass : Prop :=
  ∀ (s : State) (operand : BitVec 64),
    ∃ e e' : Engine (preset s.variant), ∃ out out' : List ResponseWord,
      deliver s (.command (encode (.seed operand)) ::
          List.replicate (preset s.variant).n (.command (encode .extract))) =
        .next { s with engine := e, input := [], output := out } ∧
      e.words = twistWords (seedWords (preset s.variant) (seedValue (preset s.variant) operand)) ∧
      e.cursor.val = (preset s.variant).n ∧
      deliver s (.command (encode (.seed operand)) ::
          List.replicate ((preset s.variant).n + 1) (.command (encode .extract))) =
        .next { s with engine := e', input := [], output := out' } ∧
      e'.words = twistWords e.words ∧ e'.cursor.val = 1

/-- R36 (and R159): whatever came before, a SEED and the commands after it leave the engine, and are answered, as on a
fresh instance of the variant that is reset and given a seed equal modulo `2^W`. -/
def Obligations.SeedRestartsLikeAFreshEngine : Prop :=
  ∀ (s : State) (before : List Event) (after : List CommandWord) (operand operand' : BitVec 64),
    operand.toNat % 2 ^ (preset s.variant).W = operand'.toNat % 2 ^ (preset s.variant).W →
    ∃ (e : Engine (preset s.variant)) (c : Nat) (pre out : List ResponseWord),
      deliver s (before ++ .command (encode (.seed operand)) :: after.map .command) =
        .next { s with engine := e, input := [], output := pre ++ out, freeCount := c } ∧
      deliver (State.resetOf s.variant) (.reset :: .command (encode (.seed operand')) :: after.map .command) =
        .next { State.resetOf s.variant with engine := e, input := [], output := out } ∧
      pre.length = before.countP Event.isAnswered ∧ out.length = after.length + 1

/-- R70, R154: CONSTRUCT is an instance that is reset and then seeded. -/
def Obligations.ConstructSeedsAFreshInstance : Prop :=
  ∀ (v : Variant) (value : BitVec 64), ∃ e : Engine (preset v),
    core.run 2 (construct v value) =
      .next { State.resetOf v with engine := e, output := [0x000000000000000000#72] } ∧
    e.words = seedWords (preset v) (seedValue (preset v) value) ∧ e.cursor.val = (preset v).n

/-! ## Host software on top of the block -/

/-- R120, R121: on a Seeded engine a bounded integer costs one EXTRACT, is the formula's value and lies in its range;
`a >= b` is refused before any EXTRACT. -/
def Obligations.BoundedIntegersStayInRange : Prop :=
  ∀ (a b : Int) (s : State),
    (a ≥ b → randIntInclusive a b s = (.error .invalidRange, s) ∧ randIntExclusive a b s = (.error .invalidRange, s)) ∧
    (a < b → s.engine.cursor.val ≤ (preset s.variant).n →
      ∃ (w : Nat) (t : State), exec .extract s = .next t ∧
        t.output = s.output ++ [BitVec.ofNat 72 w] ∧ w < 2 ^ (preset s.variant).W ∧
        randIntInclusive a b s = (.ok ((w : Int) % (b - a + 1) + a), t) ∧
        randIntExclusive a b s = (.ok ((w : Int) % (b - a) + a), t) ∧
        a ≤ (w : Int) % (b - a + 1) + a ∧ (w : Int) % (b - a + 1) + a ≤ b ∧
        a ≤ (w : Int) % (b - a) + a ∧ (w : Int) % (b - a) + a < b)

/-- R119, R123: on a Seeded engine a float divides one word by `2^W`, with the division the host gives, and a sample of
size k is k bounded integers for k EXTRACTs, the reading that R123 gives (log entry 7). -/
def Obligations.SampleAndFloatDrawWords : Prop :=
  ∀ (s : State), s.engine.cursor.val ≤ (preset s.variant).n →
    (∀ divide : Nat → Nat → Nat, ∃ (w : Nat) (t : State), exec .extract s = .next t ∧
      t.output = s.output ++ [BitVec.ofNat 72 w] ∧ w < 2 ^ (preset s.variant).W ∧
      uniformFloat divide s = (.ok (divide w (2 ^ (preset s.variant).W)), t)) ∧
    ∀ (a b : Int) (k : Nat), a < b → ∃ (xs : List Int) (t : State), sample a b k s = (.ok xs, t) ∧
      xs.length = k ∧ (∀ x ∈ xs, a ≤ x ∧ x ≤ b) ∧ t.output.length = s.output.length + k

/-- R125: on a Seeded engine a shuffle of two or more elements succeeds, costs `20*L` EXTRACTs, and returns the same
elements with the same multiplicities. -/
def Obligations.ShuffleKeepsTheElements : Prop :=
  ∀ (xs : List Nat) (s : State), 2 ≤ xs.length → s.engine.cursor.val ≤ (preset s.variant).n →
    ∃ (ys : List Nat) (t : State), shuffle xs s = (.ok ys, t) ∧ ys.Perm xs ∧
      t.output.length = s.output.length + 20 * xs.length
end

