-- ==== Sys2Proof/Laws/Fields.lean ====
section
/-! SUPPORT. The fields of command and response words. -/

namespace Sys2Proof

theorem extract_high_append (x : BitVec 8) (y : BitVec 64) : (x ++ y : BitVec 72).extractLsb' 64 8 = x := by
  apply BitVec.eq_of_getLsbD_eq
  intro i hi
  rw [BitVec.getLsbD_extractLsb', BitVec.getLsbD_append]
  simp [hi]

theorem extract_low_append (x : BitVec 8) (y : BitVec 64) : (x ++ y : BitVec 72).extractLsb' 0 64 = y := by
  apply BitVec.eq_of_getLsbD_eq
  intro i hi
  rw [BitVec.getLsbD_extractLsb', BitVec.getLsbD_append]
  simp [hi]

/-- A 72-bit word is the number its two fields make. -/
theorem toNat_fields (x : BitVec 8) (y : BitVec 64) : (x ++ y : BitVec 72).toNat = x.toNat * 2 ^ 64 + y.toNat := by
  rw [BitVec.toNat_append, ← Nat.shiftLeft_add_eq_or_of_lt y.isLt, Nat.shiftLeft_eq]

@[simp] theorem opcodeField_encode (i : Instr) : opcodeField (encode i) = opcodeOf i := extract_high_append _ _
@[simp] theorem operandField_encode (i : Instr) : operandField (encode i) = operandOf i := extract_low_append _ _

theorem opcodeField_toNat (cw : CommandWord) : (opcodeField cw).toNat = cw.toNat / 2 ^ 64 := by
  have h := cw.isLt
  rw [opcodeField, BitVec.extractLsb'_toNat, Nat.shiftRight_eq_div_pow]
  omega

theorem operandField_toNat (cw : CommandWord) : (operandField cw).toNat = cw.toNat % 2 ^ 64 := by
  rw [operandField, BitVec.extractLsb'_toNat, Nat.shiftRight_eq_div_pow]
  simp

namespace Machine

@[simp] theorem statusField_responseWord (st : BitVec 8) (d : BitVec 64) : statusField (responseWord st d) = st :=
  extract_high_append _ _
@[simp] theorem dataField_responseWord (st : BitVec 8) (d : BitVec 64) : dataField (responseWord st d) = d :=
  extract_low_append _ _

/-- An OK response is the number of its data. -/
theorem responseWord_ok (d : BitVec 64) : responseWord statusOk d = BitVec.ofNat 72 d.toNat := by
  apply BitVec.eq_of_toNat_eq
  have h := d.isLt
  rw [responseWord, toNat_fields, BitVec.toNat_ofNat]
  simp only [statusOk, BitVec.toNat_ofNat]
  omega

/-- A word of W bits, W at most 64, survives its place in the data field (R60). -/
theorem dataOfWord_toNat {p : Preset} (hW : p.W ≤ 64) (y : Word p.W) : (dataOfWord y).toNat = y.toNat := by
  rw [dataOfWord, BitVec.toNat_setWidth]
  exact Nat.mod_eq_of_lt (Nat.lt_of_lt_of_le y.isLt (Nat.pow_le_pow_right (by decide) hW))

/-- `trunc_W(operand)` as a number (R76). -/
@[simp] theorem seedValue_toNat (p : Preset) (operand : BitVec 64) :
    (seedValue p operand).toNat = operand.toNat % 2 ^ p.W := BitVec.toNat_setWidth _ _

end Machine
end Sys2Proof
end

