-- ==== Sys2Proof/Laws/PerInstr.lean ====
section
/-! SUPPORT. What holds of every command as syntax, one lemma per constructor. -/

namespace Sys2Proof.Laws.TableRow

/-- The word of a command lies in its row of spec/opcode_table.json: `word & mask = match` (R63, R64). -/
def Statement (i : Instr) : Prop := encode i &&& tableMask i = tableMatch i

theorem seed (operand : BitVec 64) : Statement (.seed operand) := by
  apply BitVec.eq_of_getLsbD_eq
  intro k hk
  show (opcodeOf (.seed operand) ++ operand &&& tableMask (.seed operand) : BitVec 72).getLsbD k = _
  rw [BitVec.getLsbD_and, BitVec.getLsbD_append]
  by_cases h : k < 64
  · have hm : ∀ j < 64, (0xFF0000000000000000#72).getLsbD j = false := by decide
    have hv : ∀ j < 64, (0x010000000000000000#72).getLsbD j = false := by decide
    simp only [h, tableMask, tableMatch, hm k h, hv k h, Bool.and_false]
  · have hm : ∀ j < 72, ¬ j < 64 → ((0x01#8).getLsbD (j - 64) && (0xFF0000000000000000#72).getLsbD j) =
        (0x010000000000000000#72).getLsbD j := by decide
    simpa [h, opcodeOf, tableMask, tableMatch] using hm k hk h

theorem extract : Statement .extract := by unfold Statement; decide

end Sys2Proof.Laws.TableRow
end

