-- ==== Sys2Proof/Laws/State.lean ====
section
/-! SUPPORT. One lemma per field per named update of the state and of the engine, so that later proofs unfold none. -/

namespace Sys2Proof.Machine

@[simp] theorem setEngine_variant (s : State) (e : Engine (preset s.variant)) : (setEngine s e).variant = s.variant := rfl
@[simp] theorem setEngine_engine (s : State) (e : Engine (preset s.variant)) : (setEngine s e).engine = e := rfl
@[simp] theorem setEngine_input (s : State) (e : Engine (preset s.variant)) : (setEngine s e).input = s.input := rfl
@[simp] theorem setEngine_output (s : State) (e : Engine (preset s.variant)) : (setEngine s e).output = s.output := rfl
@[simp] theorem setEngine_freeCount (s : State) (e : Engine (preset s.variant)) :
    (setEngine s e).freeCount = s.freeCount := rfl

@[simp] theorem setInput_variant (s : State) (es : List Event) : (setInput s es).variant = s.variant := rfl
@[simp] theorem setInput_engine (s : State) (es : List Event) : (setInput s es).engine = s.engine := rfl
@[simp] theorem setInput_input (s : State) (es : List Event) : (setInput s es).input = es := rfl
@[simp] theorem setInput_output (s : State) (es : List Event) : (setInput s es).output = s.output := rfl
@[simp] theorem setInput_freeCount (s : State) (es : List Event) : (setInput s es).freeCount = s.freeCount := rfl
@[simp] theorem setInput_self (s : State) : setInput s s.input = s := rfl

@[simp] theorem respond_variant (st : BitVec 8) (d : BitVec 64) (s : State) : (respond st d s).variant = s.variant := rfl
@[simp] theorem respond_engine (st : BitVec 8) (d : BitVec 64) (s : State) : (respond st d s).engine = s.engine := rfl
@[simp] theorem respond_input (st : BitVec 8) (d : BitVec 64) (s : State) : (respond st d s).input = s.input := rfl
@[simp] theorem respond_output (st : BitVec 8) (d : BitVec 64) (s : State) :
    (respond st d s).output = s.output ++ [responseWord st d] := rfl
@[simp] theorem respond_freeCount (st : BitVec 8) (d : BitVec 64) (s : State) :
    (respond st d s).freeCount = s.freeCount := rfl

@[simp] theorem raise_variant (f : Fault) (s : State) : (raise f s).variant = s.variant := rfl
@[simp] theorem raise_engine (f : Fault) (s : State) : (raise f s).engine = s.engine := rfl
@[simp] theorem raise_input (f : Fault) (s : State) : (raise f s).input = s.input := rfl
@[simp] theorem raise_output (f : Fault) (s : State) :
    (raise f s).output = s.output ++ [responseWord (statusOfFault f) 0#64] := rfl
@[simp] theorem raise_freeCount (f : Fault) (s : State) : (raise f s).freeCount = s.freeCount := rfl

@[simp] theorem loseWords_variant (s : State) : (loseWords s).variant = s.variant := rfl
@[simp] theorem loseWords_engine (s : State) :
    (loseWords s).engine = uninitializedEngine (preset s.variant) s.freeCount := rfl
@[simp] theorem loseWords_input (s : State) : (loseWords s).input = s.input := rfl
@[simp] theorem loseWords_output (s : State) : (loseWords s).output = s.output := rfl
@[simp] theorem loseWords_freeCount (s : State) : (loseWords s).freeCount = s.freeCount + 1 := rfl

@[simp] theorem presentWord_variant (cw : CommandWord) (s : State) : (presentWord cw s).variant = s.variant := rfl
@[simp] theorem presentWord_engine (cw : CommandWord) (s : State) : (presentWord cw s).engine = s.engine := rfl
@[simp] theorem presentWord_input (cw : CommandWord) (s : State) :
    (presentWord cw s).input = .command cw :: s.input := rfl
@[simp] theorem presentWord_output (cw : CommandWord) (s : State) : (presentWord cw s).output = s.output := rfl
@[simp] theorem presentWord_freeCount (cw : CommandWord) (s : State) :
    (presentWord cw s).freeCount = s.freeCount := rfl

@[simp] theorem resetOf_variant (v : Variant) : (State.resetOf v).variant = v := rfl
@[simp] theorem resetOf_engine (v : Variant) : (State.resetOf v).engine = uninitializedEngine (preset v) 0 := rfl
@[simp] theorem resetOf_input (v : Variant) : (State.resetOf v).input = [] := rfl
@[simp] theorem resetOf_output (v : Variant) : (State.resetOf v).output = [] := rfl

@[simp] theorem uninitializedEngine_cursor (p : Preset) (g : Nat) : (uninitializedEngine p g).cursor.val = p.n + 1 := rfl
@[simp] theorem uninitializedEngine_words (p : Preset) (g : Nat) :
    (uninitializedEngine p g).words = tabulateWords fun i => Config.unspecifiedWord p.W g i := rfl

@[simp] theorem seedEngine_words (p : Preset) (operand : BitVec 64) :
    (seedEngine p operand).words = seedWords p (seedValue p operand) := rfl
@[simp] theorem seedEngine_cursor (p : Preset) (operand : BitVec 64) : (seedEngine p operand).cursor.val = p.n := rfl

@[simp] theorem twist_words {p : Preset} (e : Engine p) : (twist e).words = twistWords e.words := rfl
@[simp] theorem twist_cursor {p : Preset} (e : Engine p) : (twist e).cursor.val = 0 := rfl

@[simp] theorem advance_words {p : Preset} (e : Engine p) (h : e.cursor.val < p.n) : (advance e h).words = e.words := rfl
@[simp] theorem advance_cursor {p : Preset} (e : Engine p) (h : e.cursor.val < p.n) :
    (advance e h).cursor.val = e.cursor.val + 1 := rfl

/-- The two predicates are what R28 calls them. -/
theorem uninitialized_iff {p : Preset} (e : Engine p) : uninitialized e = true ↔ e.cursor.val = p.n + 1 := by
  simp [uninitialized]

theorem not_uninitialized_iff {p : Preset} (e : Engine p) : uninitialized e = false ↔ e.cursor.val ≤ p.n := by
  have := e.cursor.isLt
  rw [uninitialized, beq_eq_false_iff_ne]
  omega

theorem exhausted_iff {p : Preset} (e : Engine p) : exhausted e = true ↔ p.n ≤ e.cursor.val := by
  simp [exhausted]

/-- "`uninitialized` implies `exhausted`" (R28). -/
theorem exhausted_of_uninitialized {p : Preset} (e : Engine p) (h : uninitialized e = true) : exhausted e = true := by
  rw [uninitialized_iff] at h
  rw [exhausted_iff]
  omega

@[simp] theorem uninitialized_uninitializedEngine (p : Preset) (g : Nat) :
    uninitialized (uninitializedEngine p g) = true := (uninitialized_iff _).2 rfl

/-- The 10 bits of the cursor register lose nothing in an instance (R24). -/
theorem cursorBits_toNat (v : Variant) (e : Engine (preset v)) : (cursorBits e).toNat = e.cursor.val := by
  have h := e.cursor.isLt
  have hn : (preset v).n + 2 ≤ 2 ^ 10 := by cases v <;> decide
  rw [cursorBits, BitVec.toNat_ofNat]
  exact Nat.mod_eq_of_lt (by omega)

end Sys2Proof.Machine
end

