-- ==== Sys2Proof/Laws/Words.lean ====
section
/-! SUPPORT. The laws of the state array: read after write, the table of a tabulated array, and what a loop of writes
leaves, each said once; then the two arrays the commands make. -/

namespace Sys2Proof.Machine

/-- Equal words make equal arrays. -/
theorem words_ext {p : Preset} {ws ws' : WordArray p} (h : ∀ i, readWord ws i = readWord ws' i) : ws = ws' := by
  apply Vector.ext
  intro i hi
  exact h ⟨i, hi⟩

/-- A later read of the word written returns the value written (R43). -/
@[simp] theorem readWord_writeWord_same {p : Preset} (ws : WordArray p) (i : Fin p.n) (v : Word p.W) :
    readWord (writeWord ws i v) i = v := by
  simp [readWord, writeWord, Vector.get_eq_getElem]

/-- A write changes no other word (R43). -/
theorem readWord_writeWord_other {p : Preset} (ws : WordArray p) {i j : Fin p.n} (v : Word p.W) (h : i ≠ j) :
    readWord (writeWord ws i v) j = readWord ws j := by
  have : i.val ≠ j.val := fun e => h (Fin.ext e)
  simp [readWord, writeWord, Vector.get_eq_getElem, this]

@[simp] theorem readWord_tabulateWords {p : Preset} (g : Nat → Word p.W) (i : Fin p.n) :
    readWord (tabulateWords g) i = g i.val := by
  simp [readWord, tabulateWords, Vector.get_eq_getElem]

/-- A loop whose body i writes `value ws i` to word i only: after k rounds, word i holds what body i computed on the array
as it stood then if i < k, and its old value if not. -/
theorem readWord_firstRounds {p : Preset} (value : WordArray p → Fin p.n → Word p.W) (ws : WordArray p) (k : Nat)
    (hk : k ≤ p.n) (i : Fin p.n) :
    readWord (firstRounds (fun ws i => writeWord ws i (value ws i)) k hk ws) i =
      if i.val < k then
        value (firstRounds (fun ws i => writeWord ws i (value ws i)) i.val (Nat.le_of_lt i.isLt) ws) i
      else readWord ws i := by
  induction k with
  | zero => simp [firstRounds]
  | succ k ih =>
    rw [firstRounds]
    by_cases hi : i.val = k
    · subst hi
      simp
    · rw [readWord_writeWord_other _ _ (fun e => hi (by rw [← e])), ih (Nat.le_of_succ_le hk)]
      by_cases h : i.val < k
      · rw [if_pos h, if_pos (by omega)]
      · rw [if_neg h, if_neg (by omega)]

/-- What the whole loop leaves in word i. -/
theorem readWord_forEachIndex {p : Preset} (value : WordArray p → Fin p.n → Word p.W) (ws : WordArray p)
    (i : Fin p.n) :
    readWord (forEachIndex (fun ws i => writeWord ws i (value ws i)) ws) i =
      value (firstRounds (fun ws i => writeWord ws i (value ws i)) i.val (Nat.le_of_lt i.isLt) ws) i := by
  rw [forEachIndex, readWord_firstRounds, if_pos i.isLt]

/-- Word i of the seeded array. -/
@[simp] theorem readWord_seedWords (p : Preset) (s0 : Word p.W) (i : Fin p.n) :
    readWord (seedWords p s0) i = seedWord p s0 i.val := readWord_tabulateWords _ i

/-- The array that body `k` of a pass sees: words below k are new, the others old. -/
theorem readWord_twistRounds {p : Preset} (ws : WordArray p) (k : Nat) (hk : k ≤ p.n) (i : Fin p.n) :
    readWord (firstRounds twistBody k hk ws) i =
      if i.val < k then readWord (twistWords ws) i else readWord ws i := by
  have h := readWord_firstRounds (p := p)
    (fun ws i => twistedWord p (readWord ws i) (readWord ws (nextIndex i)) (readWord ws (middleIndex i))) ws
  have e := readWord_forEachIndex (p := p)
    (fun ws i => twistedWord p (readWord ws i) (readWord ws (nextIndex i)) (readWord ws (middleIndex i))) ws i
  change readWord (twistWords ws) i = _ at e
  rw [e]
  exact h k hk i

/-- Word i after a pass, from the three reads of body i. -/
theorem readWord_twistWords {p : Preset} (ws : WordArray p) (i : Fin p.n) :
    readWord (twistWords ws) i =
      twistedWord p (readWord (firstRounds twistBody i.val (Nat.le_of_lt i.isLt) ws) i)
        (readWord (firstRounds twistBody i.val (Nat.le_of_lt i.isLt) ws) (nextIndex i))
        (readWord (firstRounds twistBody i.val (Nat.le_of_lt i.isLt) ws) (middleIndex i)) :=
  readWord_forEachIndex (p := p)
    (fun ws i => twistedWord p (readWord ws i) (readWord ws (nextIndex i)) (readWord ws (middleIndex i))) ws i

end Sys2Proof.Machine
end

