-- ==== Sys2Proof/Laws/Step.lean ====
section
/-! SUPPORT. What each meaning and the step can do, each said once; provers cite these and unfold neither. -/

namespace Sys2Proof.Machine

/-- SEED has one case. -/
theorem exec_seed (operand : BitVec 64) (s : State) :
    exec (.seed operand) s =
      .next (respond statusOk 0#64 (setEngine s (seedEngine (preset s.variant) operand))) := rfl

/-- EXTRACT, case Uninitialized. -/
theorem exec_extract_uninitialized {s : State} (h : uninitialized s.engine = true) :
    exec .extract s = .next (raise .notSeeded s) := by
  simp [exec, execExtract, h]

/-- EXTRACT, case Seeded: the engine after the twist that may run first. -/
theorem exec_extract_seeded {s : State} (h : uninitialized s.engine = false) :
    exec .extract s =
      .next (respond statusOk
        (dataOfWord (temper (preset s.variant) (readWord (twistIfExhausted s.engine).words
          ⟨(twistIfExhausted s.engine).cursor.val, twistIfExhausted_cursor_lt (preset_n_pos s.variant) s.engine⟩)))
        (setEngine s (advance (twistIfExhausted s.engine)
          (twistIfExhausted_cursor_lt (preset_n_pos s.variant) s.engine)))) := by
  simp [exec, execExtract, h]

theorem twistIfExhausted_of_lt {p : Preset} {e : Engine p} (h : e.cursor.val < p.n) : twistIfExhausted e = e := by
  have : exhausted e = false := by simpa [exhausted] using h
  simp [twistIfExhausted, this]

theorem twistIfExhausted_of_eq {p : Preset} {e : Engine p} (h : e.cursor.val = p.n) : twistIfExhausted e = twist e := by
  have : exhausted e = true := by simp [exhausted, h]
  simp [twistIfExhausted, this]

/-- EXTRACT, case Seeded and not exhausted. -/
theorem exec_extract_of_lt {s : State} (h : s.engine.cursor.val < (preset s.variant).n) :
    exec .extract s =
      .next (respond statusOk
        (dataOfWord (temper (preset s.variant) (readWord s.engine.words ⟨s.engine.cursor.val, h⟩)))
        (setEngine s (advance s.engine h))) := by
  rw [exec_extract_seeded ((not_uninitialized_iff _).2 (Nat.le_of_lt h))]
  simp only [twistIfExhausted_of_lt h]

/-- EXTRACT, case Seeded and exhausted. -/
theorem exec_extract_of_eq {s : State} (h : s.engine.cursor.val = (preset s.variant).n) :
    exec .extract s =
      .next (respond statusOk
        (dataOfWord (temper (preset s.variant)
          (readWord (twistWords s.engine.words) ⟨0, preset_n_pos s.variant⟩)))
        (setEngine s (advance (twist s.engine) (preset_n_pos s.variant)))) := by
  rw [exec_extract_seeded ((not_uninitialized_iff _).2 (Nat.le_of_eq h))]
  simp only [twistIfExhausted_of_eq h]
  rfl

/-- Both meanings answer a next state, whatever the state. -/
theorem exec_next (i : Instr) (s : State) : ∃ t, exec i s = .next t := by
  cases i with
  | seed operand => exact ⟨_, exec_seed operand s⟩
  | extract =>
    cases h : uninitialized s.engine with
    | true => exact ⟨_, exec_extract_uninitialized h⟩
    | false => exact ⟨_, exec_extract_seeded h⟩

/-- What a meaning leaves alone, and that it answers exactly once: only the engine and the responses change. -/
theorem exec_frame {i : Instr} {s t : State} (h : exec i s = .next t) :
    ∃ (e : Engine (preset s.variant)) (rw : ResponseWord),
      t = { s with engine := e, output := s.output ++ [rw] } := by
  cases i with
  | seed operand => rw [exec_seed] at h; cases h; exact ⟨_, _, rfl⟩
  | extract =>
    cases hu : uninitialized s.engine with
    | true => rw [exec_extract_uninitialized hu] at h; cases h; exact ⟨_, _, rfl⟩
    | false => rw [exec_extract_seeded hu] at h; cases h; exact ⟨_, _, rfl⟩

theorem step_idle {s : State} (h : s.input = []) : step s = .next s := by simp [step, nextEvent, h]

theorem step_reset {s : State} {rest : List Event} (h : s.input = .reset :: rest) :
    step s = .next (applyReset (setInput s rest)) := by simp [step, nextEvent, h]

theorem step_cut {s : State} {cw : CommandWord} {rest : List Event} (h : s.input = .commandCutByReset cw :: rest) :
    step s = .next (abandonCommand (setInput s rest)) := by simp [step, nextEvent, h]

theorem step_legal {s : State} {cw : CommandWord} {rest : List Event} {i : Instr}
    (h : s.input = .command cw :: rest) (hd : decode cw = .ok i) : step s = exec i (setInput s rest) := by
  simp [step, nextEvent, h, hd]

theorem step_illegal {s : State} {cw : CommandWord} {rest : List Event} {e : IllegalWord}
    (h : s.input = .command cw :: rest) (hd : decode cw = .error e) :
    step s = .next (raise .illegalCommand (setInput s rest)) := by
  simp [step, nextEvent, h, hd]

/-- Everything a step can do. -/
theorem step_cases {s t : State} (h : step s = .next t) :
    (s.input = [] ∧ t = s) ∨
    (∃ rest, s.input = .reset :: rest ∧ t = applyReset (setInput s rest)) ∨
    (∃ cw rest, s.input = .commandCutByReset cw :: rest ∧ t = abandonCommand (setInput s rest)) ∨
    (∃ cw rest i, s.input = .command cw :: rest ∧ decode cw = .ok i ∧ exec i (setInput s rest) = .next t) ∨
    (∃ cw rest e, s.input = .command cw :: rest ∧ decode cw = .error e ∧
      t = raise .illegalCommand (setInput s rest)) := by
  match hin : s.input with
  | [] => rw [step_idle hin] at h; cases h; exact .inl ⟨rfl, rfl⟩
  | .reset :: rest => rw [step_reset hin] at h; cases h; exact .inr (.inl ⟨rest, rfl, rfl⟩)
  | .commandCutByReset cw :: rest =>
    rw [step_cut hin] at h; cases h; exact .inr (.inr (.inl ⟨cw, rest, rfl, rfl⟩))
  | .command cw :: rest =>
    match hd : decode cw with
    | .ok i => rw [step_legal hin hd] at h; exact .inr (.inr (.inr (.inl ⟨cw, rest, i, rfl, hd, h⟩)))
    | .error e =>
      rw [step_illegal hin hd] at h; cases h
      exact .inr (.inr (.inr (.inr ⟨cw, rest, e, rfl, hd, rfl⟩)))

theorem applyReset_seeded {s : State} (h : uninitialized s.engine = false) : applyReset s = loseWords s := by
  simp [applyReset, h]

theorem applyReset_uninitialized {s : State} (h : uninitialized s.engine = true) : applyReset s = s := by
  simp [applyReset, h]

/-- One step of a run. -/
theorem run_succ {s t : State} (h : step s = .next t) (k : Nat) : core.run (k + 1) s = core.run k t := by
  have h' : core.step s = .next t := h
  simp only [Host.Core.run, h']

/-- A step takes its event off the input and leaves the rest of it as it is. -/
theorem step_input {s t : State} (h : step s = .next t) : t.input = s.input.tail := by
  rcases step_cases h with ⟨hi, rfl⟩ | ⟨rest, hi, rfl⟩ | ⟨cw, rest, hi, rfl⟩ | ⟨cw, rest, i, hi, -, he⟩ |
    ⟨cw, rest, e, hi, -, rfl⟩
  · simp [hi]
  · rw [hi, applyReset]; split <;> simp
  · simp [hi, abandonCommand]
  · obtain ⟨e, rw', rfl⟩ := exec_frame he
    simp [hi]
  · simp [hi]

end Sys2Proof.Machine
end

