-- ==== Sys2Proof/Laws/Run.lean ====
section
/-! SUPPORT. Runs over a list of events: a step depends neither on what waits behind its event nor on the responses
already emitted, so a run is its first step followed by the run of the rest, with their responses joined. -/

namespace Sys2Proof.Machine

/-- `s` with other events to come and other responses behind it. -/
def State.withPorts (s : State) (input : List Event) (output : List ResponseWord) : State :=
  { s with input := input, output := output }

@[simp] theorem withPorts_variant (s : State) (i : List Event) (o : List ResponseWord) :
    (s.withPorts i o).variant = s.variant := rfl
@[simp] theorem withPorts_engine (s : State) (i : List Event) (o : List ResponseWord) :
    (s.withPorts i o).engine = s.engine := rfl
@[simp] theorem withPorts_input (s : State) (i : List Event) (o : List ResponseWord) :
    (s.withPorts i o).input = i := rfl
@[simp] theorem withPorts_output (s : State) (i : List Event) (o : List ResponseWord) :
    (s.withPorts i o).output = o := rfl
@[simp] theorem withPorts_freeCount (s : State) (i : List Event) (o : List ResponseWord) :
    (s.withPorts i o).freeCount = s.freeCount := rfl
@[simp] theorem withPorts_withPorts (s : State) (i i' : List Event) (o o' : List ResponseWord) :
    (s.withPorts i o).withPorts i' o' = s.withPorts i' o' := rfl
theorem withPorts_self (s : State) : s.withPorts s.input s.output = s := rfl

theorem deliver_eq (s : State) (es : List Event) : deliver s es = core.run es.length (s.withPorts es []) := rfl

/-- A meaning adds its response to whatever was emitted before. -/
theorem exec_local {i : Instr} {s t : State} (h : exec i (s.withPorts [] []) = .next t) (rest : List Event)
    (out : List ResponseWord) : exec i (s.withPorts rest out) = .next (t.withPorts rest (out ++ t.output)) := by
  cases i with
  | seed operand => rw [exec_seed] at h ⊢; cases h; rfl
  | extract =>
    cases hu : uninitialized s.engine with
    | true =>
      rw [exec_extract_uninitialized (s := s.withPorts [] []) hu] at h
      rw [exec_extract_uninitialized (s := s.withPorts rest out) hu]
      cases h; rfl
    | false =>
      rw [exec_extract_seeded (s := s.withPorts [] []) hu] at h
      rw [exec_extract_seeded (s := s.withPorts rest out) hu]
      cases h; rfl

/-- A step on one event, with anything waiting behind it and anything emitted before. -/
theorem step_local {s t : State} {ev : Event} (h : step (s.withPorts [ev] []) = .next t) (rest : List Event)
    (out : List ResponseWord) :
    step (s.withPorts (ev :: rest) out) = .next (t.withPorts rest (out ++ t.output)) := by
  cases ev with
  | reset =>
    rw [step_reset (s := s.withPorts [.reset] []) rfl] at h
    rw [step_reset (s := s.withPorts (.reset :: rest) out) rfl]
    cases h
    cases hu : uninitialized s.engine with
    | true =>
      rw [applyReset_uninitialized (by exact hu), applyReset_uninitialized (by exact hu)]
      simp [State.withPorts, setInput]
    | false =>
      rw [applyReset_seeded (by exact hu), applyReset_seeded (by exact hu)]
      simp [State.withPorts, setInput, loseWords]
  | commandCutByReset cw =>
    rw [step_cut (s := s.withPorts [.commandCutByReset cw] []) rfl] at h
    rw [step_cut (s := s.withPorts (.commandCutByReset cw :: rest) out) rfl]
    cases h
    simp [State.withPorts, setInput, abandonCommand, loseWords]
  | command cw =>
    match hd : decode cw with
    | .ok i =>
      rw [step_legal (s := s.withPorts [.command cw] []) rfl hd] at h
      rw [step_legal (s := s.withPorts (.command cw :: rest) out) rfl hd]
      exact exec_local h rest out
    | .error e =>
      rw [step_illegal (s := s.withPorts [.command cw] []) rfl hd] at h
      rw [step_illegal (s := s.withPorts (.command cw :: rest) out) rfl hd]
      cases h
      rfl

/-- A run over a list of events ends in a next state, has taken them all, and puts its responses behind those emitted
before it. -/
theorem run_spec (es : List Event) (s : State) :
    ∃ u : State, deliver s es = .next u ∧ u.input = [] ∧
      ∀ out, core.run es.length (s.withPorts es out) = .next (u.withPorts [] (out ++ u.output)) := by
  induction es generalizing s with
  | nil => exact ⟨s.withPorts [] [], rfl, rfl, fun out => by simp [Host.Core.run]⟩
  | cons ev es ih =>
    obtain ⟨t, ht⟩ : ∃ t, step (s.withPorts [ev] []) = .next t := by
      cases ev with
      | reset => exact ⟨_, step_reset rfl⟩
      | commandCutByReset cw => exact ⟨_, step_cut rfl⟩
      | command cw =>
        match hd : decode cw with
        | .ok i => rw [step_legal (s := s.withPorts [.command cw] []) rfl hd]; exact exec_next _ _
        | .error e => exact ⟨_, step_illegal (s := s.withPorts [.command cw] []) rfl hd⟩
    obtain ⟨u, -, -, hrun⟩ := ih t
    have run : ∀ out, core.run (ev :: es).length (s.withPorts (ev :: es) out) =
        .next (u.withPorts [] ((out ++ t.output) ++ u.output)) := fun out => by
      rw [List.length_cons, run_succ (step_local ht es out), hrun]
    exact ⟨_, (deliver_eq s _).trans (run []), rfl, fun out => by rw [run out]; simp⟩

/-- The run of no events. -/
theorem deliver_nil (s : State) : deliver s [] = .next (s.withPorts [] []) := rfl

/-- A run is its first step followed by the run of the rest. -/
theorem deliver_cons {s t u : State} {ev : Event} {es : List Event} (h : step (s.withPorts [ev] []) = .next t)
    (hu : deliver t es = .next u) : deliver s (ev :: es) = .next (u.withPorts [] (t.output ++ u.output)) := by
  obtain ⟨u', hu', -, hrun⟩ := run_spec es t
  rw [hu] at hu'
  cases hu'
  rw [deliver_eq, List.length_cons, run_succ (step_local h es []), hrun]
  rfl

end Sys2Proof.Machine
end

