-- ==== Sys2Proof/Tests/Slice0.lean ====
section
/-! SUPPORT. The model's own tests. Expected values are those of spec/95_test_vectors.md (its section in each comment),
which the spec derives from its rules; then the ill-formed terms each check refuses, and for every statement of
Obligations.lean with hypotheses a concrete case that meets them. -/

open Sys2Proof Sys2Proof.Machine

namespace Sys2Proof.Tests

/-! ## Helpers: small states -/

/-- An engine with given words and cursor `k` (at most n+1). -/
def engineAt (p : Preset) (g : Nat → Word p.W) (k : Nat) : Engine p where
  words := tabulateWords g
  cursor := ⟨k % (p.n + 2), Nat.mod_lt _ (by omega)⟩

/-- An instance whose words are all zero, with its cursor at `k` and `input` to come. -/
def zeroState (v : Variant) (k : Nat) (input : List Event) : State where
  variant := v
  engine := engineAt (preset v) (fun _ => 0#_) k
  input := input
  output := []
  freeCount := 1

/-- An instance right after SEED. -/
def seededState (v : Variant) (operand : BitVec 64) : State :=
  { zeroState v 0 [] with engine := seedEngine (preset v) operand }

/-- The responses after one outcome, as numbers. -/
def answers : Host.Outcome State Fault Refusal → List Nat
  | .next t => t.output.map BitVec.toNat
  | .fault _ => []
  | .refused _ => []

/-- The cursor after one outcome. -/
def cursorAfter : Host.Outcome State Fault Refusal → Nat
  | .next t => t.engine.cursor.val
  | .fault _ => 0
  | .refused _ => 0

/-! ## Decoding: words written out bit by bit from R57, R63 and R64 (section 2.6) -/

theorem test_decode_seed_written_out :
    decode (0b00000001#8 ++ 0b0000000000000000000000000000000000000000000000000001010101110001#64) =
      .ok (.seed 5489#64) := by decide
theorem test_decode_seed_all_ones : decode 0x01FFFFFFFFFFFFFFFF#72 = .ok (.seed 0xFFFFFFFFFFFFFFFF#64) := by decide
theorem test_decode_extract_written_out :
    decode (0b00000010#8 ++ 0b0000000000000000000000000000000000000000000000000000000000000000#64) = .ok .extract := by
  decide
theorem test_decode_extract_top_operand_bit : decode 0x028000000000000000#72 = .error .extractOperand := by decide
theorem test_decode_zero : decode 0x000000000000000000#72 = .error .reservedOpcode := by decide
theorem test_decode_opcode_81 : decode 0x810000000000000000#72 = .error .reservedOpcode := by decide
theorem test_decode_table_word : decodeTableWord 72 0x010000000000001571 = some (.seed 5489#64) := by decide
theorem test_encode_seed : encode (.seed 5489#64) = 0x010000000000001571#72 := by decide

/-! ## SEED (section 2.1) -/

theorem test_seed_step_wide_product : seedRecurrence presetMT32 0x6C078967#32 3 = 0x714ACB41#32 := by decide
theorem test_seed_step_top_bits : seedRecurrence presetMT64 0xC000000000000000#64 5 = 0xC8F5DC87E5C07D8C#64 := by decide
theorem test_seed_last_word :
    (readWord (seedWords presetMT32 0#32) ⟨623, by decide⟩).toNat = 0x6B1A1930 := by decide +kernel
theorem test_seed_oversized_operand :
    seedValue presetMT32 0xDEADBEEF00001571#64 = 0x00001571#32 := by decide

/-! ## TWIST, one body (section 2.3), and the in-place order (section 2.4) -/

theorem test_twisted_word_odd : twistedWord presetMT32 0#32 1#32 0x08A9BDCD#32 = 0x91A10D12#32 := by decide
theorem test_twisted_word_masks : twistedWord presetMT32 0x7FFFFFFF#32 0x80000000#32 0x12345678#32 = 0x12345678#32 := by
  decide
theorem test_twisted_word_bit31_is_upper :
    twistedWord presetMT64 0x0000000080000000#64 0#64 0#64 = 0x0000000040000000#64 := by decide
theorem test_twist_sees_new_word_zero :
    (readWord (twistWords (seedWords presetMT64 0#64)) ⟨156, by decide⟩).toNat = 0x8FDF5C7DB7D910B2 := by
  decide +kernel

/-! ## TEMPER (section 2.2) -/

theorem test_temper_mt32 : temper presetMT32 0x12345678#32 = 0x2B7E4A2D#32 := by decide
theorem test_temper_mt64 : temper presetMT64 0x0123456789ABCDEF#64 = 0x2254DA7001198660#64 := by decide

/-! ## EXTRACT: the known-answer test S5 and its MT64 companion (section 2.5) -/

theorem test_known_answer_mt32 : answers (exec .extract (seededState .mt32 0)) = [0x8C7F0AAC] := by decide +kernel
theorem test_known_answer_mt64 : answers (exec .extract (seededState .mt64 5489)) = [0xC96D191CF6F6AEA6] := by
  decide +kernel

/-! ## Faults and the step (section 2.7) -/

theorem test_not_seeded :
    answers (step (State.reset.withFetchWord 72 0x020000000000000000)) = [0x020000000000000000] := by decide +kernel
theorem test_illegal_before_not_seeded :
    answers (step (State.reset.withFetchWord 72 0x020000000000000001)) = [0x010000000000000000] := by decide +kernel
theorem test_illegal_keeps_cursor :
    cursorAfter (step (zeroState .mt32 1 [.command 0x020000000000000005#72])) = 1 := by decide +kernel
theorem test_seed_from_reset :
    cursorAfter (step (State.reset.withFetchWord 72 0x010000000000000000)) = 624 := by decide +kernel

/-! ## The checks refuse ill-formed terms -/

theorem test_wellFormed_refuses_r_zero : ({ presetMT32 with r := 0 } : Preset).wellFormed = false := by decide
theorem test_wellFormed_refuses_m_beyond_n : ({ presetMT32 with m := 624 } : Preset).wellFormed = false := by decide
theorem test_wellFormed_refuses_wide_shift : ({ presetMT32 with t := 32 } : Preset).wellFormed = false := by decide
theorem test_wellFormed_refuses_zero_shift : ({ presetMT64 with u := 0 } : Preset).wellFormed = false := by decide
theorem test_supported_refuses_mixed_table :
    ({ presetMT32 with n := 312, m := 156 } : Preset).supported = false := by decide
theorem test_no_third_variant : variantOfWidth 16 = none := by decide
theorem test_legalResponse_refuses_status_3 : legalResponse presetMT32 0x030000000000000000#72 = false := by decide
theorem test_legalResponse_refuses_fault_data : legalResponse presetMT64 0x010000000000000001#72 = false := by decide
theorem test_legalResponse_refuses_wide_word : legalResponse presetMT32 0x000000000100000000#72 = false := by decide
/-- Commands have no ill-formed term: every SEED operand is legal (R63). -/
theorem test_wellFormed_every_command (i : Instr) : i.wellFormed = true := by cases i <;> rfl

/-! ## Every hypothesis of a statement is met by something: one theorem for each statement that has hypotheses, at the
boundary values of its clauses -/

/-- The four clauses of the opcode map: opcode 1; opcode 2 with operand 0 and with operands 1 and 2^63; opcodes 0, 3, 255. -/
theorem witness_DecoderIsTheOpcodeMap :
    (0x01FFFFFFFFFFFFFFFF#72).toNat / 2 ^ 64 = 1 ∧
    ((0x020000000000000000#72).toNat / 2 ^ 64 = 2 ∧ (0x020000000000000000#72).toNat % 2 ^ 64 = 0) ∧
    ((0x020000000000000001#72).toNat / 2 ^ 64 = 2 ∧ (0x020000000000000001#72).toNat % 2 ^ 64 ≠ 0) ∧
    ((0x028000000000000000#72).toNat / 2 ^ 64 = 2 ∧ (0x028000000000000000#72).toNat % 2 ^ 64 ≠ 0) ∧
    ((0x000000000000000000#72).toNat / 2 ^ 64 ≠ 1 ∧ (0x000000000000000000#72).toNat / 2 ^ 64 ≠ 2) ∧
    ((0x030000000000000000#72).toNat / 2 ^ 64 ≠ 1 ∧ (0x030000000000000000#72).toNat / 2 ^ 64 ≠ 2) ∧
    ((0xFF0000000000000000#72).toNat / 2 ^ 64 ≠ 1 ∧ (0xFF0000000000000000#72).toNat / 2 ^ 64 ≠ 2) ∧
    decode 0x010000000000000000#72 = .ok (.seed 0#64) ∧ decode 0x020000000000000000#72 = .ok .extract ∧
    (0x010000000000000000#72 : CommandWord) ≠ 0x020000000000000000#72 := by decide

/-- A Seeded and an Uninitialized engine with a reset to come: cursors 0, n and n+1. -/
theorem witness_ResetEventMakesUninitialized :
    (∀ v k, (zeroState v k [.reset]).input = .reset :: []) ∧
    (∀ v, (zeroState v 0 [.reset]).engine.cursor.val ≤ (preset v).n) ∧
    (∀ v, (zeroState v (preset v).n [.reset]).engine.cursor.val ≤ (preset v).n) ∧
    (∀ v, (zeroState v ((preset v).n + 1) [.reset]).engine.cursor.val = (preset v).n + 1) :=
  ⟨fun _ _ => rfl, fun v => by cases v <;> decide, fun v => by cases v <;> decide, fun v => by cases v <;> decide⟩

theorem witness_ResetDuringCommandAbandonsIt :
    (zeroState .mt32 624 [.commandCutByReset 0x020000000000000000#72]).input =
      .commandCutByReset 0x020000000000000000#72 :: [] := rfl

/-- Word 0; words 1 and n-1 with the word before each. -/
theorem witness_SeedFillsTheArray :
    ((⟨0, by decide⟩ : Fin presetMT32.n).val = 0) ∧
    ((⟨0, by decide⟩ : Fin presetMT32.n).val + 1 = (⟨1, by decide⟩ : Fin presetMT32.n).val) ∧
    ((⟨622, by decide⟩ : Fin presetMT32.n).val + 1 = (⟨623, by decide⟩ : Fin presetMT32.n).val) ∧
    ((⟨310, by decide⟩ : Fin presetMT64.n).val + 1 = (⟨311, by decide⟩ : Fin presetMT64.n).val) := by decide

/-- Two operands that differ and reduce to one seed value in MT32. -/
theorem witness_SeedForgetsThePast :
    (0x0000000100000000#64).toNat % 2 ^ (preset (zeroState .mt32 7 []).variant).W =
      (0x0000000000000000#64).toNat % 2 ^ (preset (zeroState .mt32 7 []).variant).W := by decide

theorem witness_SeedNeverMakesTheZeroArray :
    (⟨1, by decide⟩ : Fin (preset .mt64).n).val = 1 ∧ (⟨2, by decide⟩ : Fin (preset .mt64).n).val = 2 := by decide

/-- Bits 0, r-1, r and W-1 of the combined word. -/
theorem witness_CombineTakesUpperAndLowerBits :
    presetMT64.r < presetMT64.W ∧ 0 < presetMT64.r ∧ 30 < presetMT64.r ∧ ¬ 31 < presetMT64.r ∧ 63 < presetMT64.W ∧
      ¬ 63 < presetMT64.r := by decide

theorem witness_MatrixStepHalvesAndFeedsBack :
    ∀ v, 1 ≤ (preset v).r ∧ (preset v).r < (preset v).W := by intro v; cases v <;> decide

/-- The bodies where a read turns from old words to new ones: 0, n-m-1, n-m and n-1. -/
theorem witness_TwistReadsOldThenNewWords :
    1 ≤ presetMT32.m ∧ presetMT32.m < presetMT32.n ∧ 0 + presetMT32.m < presetMT32.n ∧
      226 + presetMT32.m < presetMT32.n ∧ ¬ 227 + presetMT32.m < presetMT32.n ∧ 622 + 1 < presetMT32.n ∧
      ¬ 623 + 1 < presetMT32.n := by decide

theorem witness_TwistIsTheThreeRangePass : ∀ v, 1 ≤ (preset v).m ∧ (preset v).m < (preset v).n := by
  intro v; cases v <;> decide

/-- Words 0 and n-m-1 are in the clause that agrees, n-m is not. -/
theorem witness_DoubleBufferedPassDiffers :
    2 ≤ presetMT64.m ∧ presetMT64.m < presetMT64.n ∧ 0 < presetMT64.n - presetMT64.m ∧
      155 < presetMT64.n - presetMT64.m ∧ ¬ 156 < presetMT64.n - presetMT64.m := by decide

/-- Two arrays that differ in bit 30 of word 0. -/
theorem witness_TwistIgnoresLowBitsOfWordZero :
    ∃ old old' : WordArray presetMT32, readWord old ⟨0, by decide⟩ ≠ readWord old' ⟨0, by decide⟩ ∧
      (∀ i : Fin presetMT32.n, i.val ≠ 0 → readWord old i = readWord old' i) ∧
      ∀ i : Fin presetMT32.n, i.val = 0 →
        readWord old i &&& presetMT32.upperMask = readWord old' i &&& presetMT32.upperMask := by
  refine ⟨tabulateWords fun i => if i = 0 then 0x40000000#32 else 5#32, tabulateWords fun i => if i = 0 then 0#32 else 5#32,
    ?_, ?_, ?_⟩
  · rw [readWord_tabulateWords, readWord_tabulateWords]; decide
  · intro i hi; simp [hi]
  · intro i hi; rw [readWord_tabulateWords, readWord_tabulateWords]; simp only [hi]; decide

/-- The array that is zero but for the low r bits of word 0. -/
theorem witness_ZeroArrayStaysZero :
    ∃ old : WordArray (preset .mt32), (∀ i : Fin (preset .mt32).n, i.val ≠ 0 → readWord old i = 0#(preset .mt32).W) ∧
      ∀ i : Fin (preset .mt32).n, i.val = 0 → readWord old i &&& (preset .mt32).upperMask = 0#(preset .mt32).W := by
  refine ⟨tabulateWords fun i => if i = 0 then 0x7FFFFFFF#32 else 0#32, ?_, ?_⟩
  · intro i hi; simp [hi]
  · intro i hi; rw [readWord_tabulateWords]; simp only [hi]; decide

theorem witness_PassesContinueOneRecurrence :
    0 < presetMT64.n ∧ 1 ≤ presetMT64.m ∧ presetMT64.m < presetMT64.n := by decide

/-- Bits W-u and W-1 stay in stage 1, bit s-1 in stage 2, bit t-1 in stage 3, bits W-l and W-1 in stage 4. -/
theorem witness_TemperStagesAsNumbers :
    (21 < presetMT32.W ∧ presetMT32.W ≤ 21 + presetMT32.u) ∧ (31 < presetMT32.W ∧ presetMT32.W ≤ 31 + presetMT32.u) ∧
      6 < presetMT32.s ∧ 14 < presetMT32.t ∧ (14 < presetMT32.W ∧ presetMT32.W ≤ 14 + presetMT32.l) ∧
      (31 < presetMT32.W ∧ presetMT32.W ≤ 31 + presetMT32.l) := by decide

theorem witness_TemperIsALinearBijection :
    1 ≤ presetMT32.u ∧ 1 ≤ presetMT32.s ∧ 1 ≤ presetMT32.t ∧ 1 ≤ presetMT32.l := by decide

/-- Cursors 0 and n-1. -/
theorem witness_ExtractReturnsTheWordUnderTheCursor :
    ∀ v, (zeroState v 0 []).engine.cursor.val < (preset v).n ∧
      (zeroState v ((preset v).n - 1) []).engine.cursor.val < (preset v).n := by
  intro v; cases v <;> decide

/-- Cursor n; and cursors 0 and n-1 for the second clause. -/
theorem witness_ExtractTwistsExactlyWhenExhausted :
    ∀ v, (zeroState v (preset v).n []).engine.cursor.val = (preset v).n ∧
      (zeroState v 0 []).engine.cursor.val < (preset v).n ∧
      (zeroState v ((preset v).n - 1) []).engine.cursor.val < (preset v).n := by
  intro v; cases v <;> decide

theorem witness_ExtractBeforeSeedRaisesNotSeeded :
    ∀ v, (State.resetOf v).engine.cursor.val = (preset v).n + 1 := by intro v; cases v <;> rfl

/-- A SEED and an EXTRACT waiting; a table word that decodes. -/
theorem witness_StepRunsTheDecodedCommand :
    (zeroState .mt32 3 [.command 0x010000000000000007#72, .reset]).input =
      .command 0x010000000000000007#72 :: [.reset] ∧
    decode 0x010000000000000007#72 = .ok (.seed 7#64) ∧ decode 0x020000000000000000#72 = .ok .extract ∧
    decodeTableWord 72 0x020000000000000000 = some .extract := by decide

/-- Illegal words: opcodes 0, 3 and 255, and opcode 2 with operand 1. -/
theorem witness_IllegalWordRaisesIllegalCommand :
    (zeroState .mt64 0 [.command 0x030000000000000000#72]).input = .command 0x030000000000000000#72 :: [] ∧
    ((0x00FFFFFFFFFFFFFFFF#72).toNat / 2 ^ 64 ≠ 1 ∧ ((0x00FFFFFFFFFFFFFFFF#72).toNat / 2 ^ 64 = 2 → (0x00FFFFFFFFFFFFFFFF#72).toNat % 2 ^ 64 ≠ 0)) ∧
    ((0x030000000000000000#72).toNat / 2 ^ 64 ≠ 1 ∧ ((0x030000000000000000#72).toNat / 2 ^ 64 = 2 → (0x030000000000000000#72).toNat % 2 ^ 64 ≠ 0)) ∧
    ((0xFF0000000000000000#72).toNat / 2 ^ 64 ≠ 1 ∧ ((0xFF0000000000000000#72).toNat / 2 ^ 64 = 2 → (0xFF0000000000000000#72).toNat % 2 ^ 64 ≠ 0)) ∧
    ((0x020000000000000001#72).toNat / 2 ^ 64 ≠ 1 ∧ ((0x020000000000000001#72).toNat / 2 ^ 64 = 2 → (0x020000000000000001#72).toNat % 2 ^ 64 ≠ 0)) :=
  ⟨rfl, by decide, by decide, by decide, by decide⟩

/-- An engine at cursor n+1 and one at cursor n with a word waiting: SEED, EXTRACT and an illegal word. -/
theorem witness_StatusOfEveryCommand :
    (∀ cw k, (zeroState .mt32 k [.command cw]).input = .command cw :: []) ∧
    (zeroState .mt32 625 []).engine.cursor.val = (preset .mt32).n + 1 ∧
    (zeroState .mt32 624 []).engine.cursor.val ≠ (preset .mt32).n + 1 ∧
    (0x010000000000000000#72 : CommandWord) ≠ 0x020000000000000000#72 :=
  ⟨fun _ _ => rfl, by decide, by decide, by decide⟩

theorem witness_NoStepStops : (zeroState .mt32 624 []).input = [] := rfl

theorem witness_VariantNeverChanges : ∃ t, step (zeroState .mt64 0 [.reset]) = .next t := ⟨_, rfl⟩

/-- A reset that makes a Seeded engine Uninitialized, and a SEED that ends that. -/
theorem witness_OnlyResetEntersAndOnlySeedLeaves :
    (∃ t, step (zeroState .mt32 5 [.reset]) = .next t ∧ uninitialized (zeroState .mt32 5 [.reset]).engine = false ∧
      uninitialized t.engine = true) ∧
    ∃ t, step (zeroState .mt32 625 [.command 0x010000000000000001#72]) = .next t ∧
      uninitialized (zeroState .mt32 625 []).engine = true ∧ uninitialized t.engine = false :=
  ⟨⟨_, rfl, by decide, by decide⟩, ⟨_, rfl, by decide, by decide⟩⟩

/-- The reset state has the invariant, and a Seeded state with a response has it; each steps. -/
theorem witness_EveryStepKeepsTheInvariant :
    (State.reset.Inv ∧ ∃ t, step State.reset = .next t) ∧
    ∃ s : State, s.Inv ∧ s.output ≠ [] ∧ uninitialized s.engine = false ∧ ∃ t, step s = .next t := by
  refine ⟨⟨⟨(by intro r h; cases h), .inl (by decide)⟩, ⟨_, rfl⟩⟩,
    { seededState .mt32 0#64 with output := [0#72], input := [.command 0x020000000000000000#72] }, ⟨?_, .inr ?_⟩, by simp,
    by decide, ?_⟩
  · intro r h
    simp only [List.mem_singleton] at h
    subst h
    decide
  · exact ⟨_, 0, rfl, by decide, by decide, by decide⟩
  · exact ⟨_, (step_legal (i := .extract) rfl (by decide)).trans (exec_extract_seeded (by decide))⟩

theorem witness_FaultsAreNotSticky :
    decode 0x000000000000000000#72 = .error .reservedOpcode ∧
    (zeroState .mt32 625 []).engine.cursor.val = (preset .mt32).n + 1 := by decide

/-- Two Uninitialized engines with different words. -/
theorem witness_UnspecifiedWordsAreNeverSeen :
    ∃ e e' : Engine (preset .mt32), e ≠ e' ∧ uninitialized e = true ∧ uninitialized e' = true := by
  refine ⟨engineAt presetMT32 (fun _ => 0#32) 625, engineAt presetMT32 (fun _ => 1#32) 625, ?_, by decide, by decide⟩
  intro h
  have h0 := congrArg (fun e => readWord e.words ⟨0, by decide⟩) h
  simp only [engineAt, readWord_tabulateWords] at h0
  exact absurd h0 (by decide)

theorem witness_SeedRestartsLikeAFreshEngine :
    (0xDEADBEEF00001571#64).toNat % 2 ^ (preset State.reset.variant).W =
      (5489#64).toNat % 2 ^ (preset State.reset.variant).W := by decide

/-- The range `[5, 5]` is refused, `[1, 5]` is not; Seeded at cursors 0 and n. -/
theorem witness_BoundedIntegersStayInRange :
    ((5 : Int) ≥ 5) ∧ ((1 : Int) < 5) ∧ (zeroState .mt32 0 []).engine.cursor.val ≤ (preset .mt32).n ∧
      (zeroState .mt32 624 []).engine.cursor.val ≤ (preset .mt32).n := by decide

theorem witness_SampleAndFloatDrawWords :
    ((1 : Int) < 6) ∧ (zeroState .mt64 312 []).engine.cursor.val ≤ (preset .mt64).n := by decide

theorem witness_ShuffleKeepsTheElements :
    2 ≤ [10, 20].length ∧ (zeroState .mt64 312 []).engine.cursor.val ≤ (preset .mt64).n := by decide

end Sys2Proof.Tests
end

-- What follows settles the obligations of spec/00_scope.md (O1, O30).
section
/-! PROOF. The constant tables and their masks (R8, R9), the widths that have a variant (R133), and the totality of the step. -/

namespace Sys2Proof

/-- The lower mask is the number `2^r - 1` (R9). -/
theorem lowerMask_toNat {p : Preset} (hr : p.r < p.W) : p.lowerMask.toNat = 2 ^ p.r - 1 := by
  have hone : 1 < 2 ^ p.W := Nat.one_lt_two_pow (by omega)
  have hlt : 2 ^ p.r < 2 ^ p.W := Nat.pow_lt_pow_right (by decide) hr
  have hpos : 1 ≤ 2 ^ p.r := Nat.one_le_two_pow
  have hshift : (1#p.W <<< p.r).toNat = 2 ^ p.r := by
    rw [BitVec.toNat_shiftLeft, BitVec.toNat_ofNat, Nat.mod_eq_of_lt hone, Nat.shiftLeft_eq, Nat.one_mul,
      Nat.mod_eq_of_lt hlt]
  have hle : 1#p.W ≤ 1#p.W <<< p.r := by
    rw [BitVec.le_def, BitVec.toNat_ofNat, Nat.mod_eq_of_lt hone, hshift]
    exact hpos
  rw [Preset.lowerMask, BitVec.toNat_sub_of_le hle, hshift, BitVec.toNat_ofNat, Nat.mod_eq_of_lt hone]

/-- The upper mask is what the lower mask leaves of the W bits (R9). -/
theorem upperMask_toNat {p : Preset} (hr : p.r < p.W) : p.upperMask.toNat = 2 ^ p.W - 2 ^ p.r := by
  have hpos : 1 ≤ 2 ^ p.r := Nat.one_le_two_pow
  rw [Preset.upperMask, BitVec.toNat_not, lowerMask_toNat hr]
  omega

/-- Both tables are supported, and their numbers meet the bounds (R7, R8). -/
theorem preset_supported_wellFormed (v : Variant) :
    (preset v).supported = true ∧ (preset v).wellFormed = true := by
  cases v with
  | mt32 => decide
  | mt64 => decide

/-- The widths 32 and 64, and no other, have a variant (R133). -/
theorem variantOfWidth_isSome_iff (width : Nat) :
    (variantOfWidth width).isSome = true ↔ width = 32 ∨ width = 64 := by
  unfold variantOfWidth
  by_cases h32 : width = 32
  · simp [h32]
  · by_cases h64 : width = 64
    · simp [h64]
    · simp [h32, h64]

/-- Settles O1: the numbers stand in the tables, and the masks are evaluated by their formulas in r and W. -/
theorem presetTablesAndMasks : Obligations.PresetTablesAndMasks := by
  have lower32 : (preset .mt32).lowerMask = 0x7FFFFFFF#32 := BitVec.eq_of_toNat_eq (lowerMask_toNat (by decide))
  have upper32 : (preset .mt32).upperMask = 0x80000000#32 := BitVec.eq_of_toNat_eq (upperMask_toNat (by decide))
  have lower64 : (preset .mt64).lowerMask = 0x000000007FFFFFFF#64 :=
    BitVec.eq_of_toNat_eq (lowerMask_toNat (by decide))
  have upper64 : (preset .mt64).upperMask = 0xFFFFFFFF80000000#64 :=
    BitVec.eq_of_toNat_eq (upperMask_toNat (by decide))
  exact ⟨rfl, rfl, rfl, rfl, rfl, rfl, lower32, upper32, rfl, rfl, rfl, rfl, rfl, rfl, lower64, upper64,
    preset_supported_wellFormed, variantOfWidth_isSome_iff⟩

namespace Machine

/-- No step stops the machine: reset, an abandoned command and an illegal word have their next state (R150, R151, R131),
and a legal command runs to its end. -/
theorem stepSafe (s : State) : StepSafe s := by
  unfold StepSafe
  match hin : s.input with
  | [] => exact ⟨_, step_idle hin⟩
  | .reset :: _ => exact ⟨_, step_reset hin⟩
  | .commandCutByReset _ :: _ => exact ⟨_, step_cut hin⟩
  | .command cw :: rest =>
    match hd : decode cw with
    | .ok i =>
      rw [step_legal hin hd]
      exact exec_next i (setInput s rest)
    | .error _ => exact ⟨_, step_illegal hin hd⟩

/-- Settles O30, by the cases of the next event. -/
theorem noStepStops : Obligations.NoStepStops := ⟨stepSafe, fun _ => step_idle⟩

end Machine
end Sys2Proof
end

-- What follows settles the obligations of spec/10_state.md (O6, O31, O32, O33, O37, O40).
section
/-! PROOF. What a step and a run can change of the state, and the states Uninitialized and Seeded (R25, R33, R34). -/

namespace Sys2Proof

/-- Decoding the word of a command gives the command back (R65). -/
theorem decode_encode (i : Instr) : decode (encode i) = .ok i := by
  cases i with
  | seed operand => simp [decode, opcodeOf, operandOf]
  | extract => simp [decode, opcodeOf, operandOf]

/-- Only opcode 0x01 decodes to SEED (R63). -/
theorem opcodeField_of_decode_seed {cw : CommandWord} {operand : BitVec 64} (h : decode cw = .ok (.seed operand)) :
    opcodeField cw = 0x01#8 := by
  unfold decode at h
  split at h
  · assumption
  · split at h
    · split at h <;> cases h
    · cases h

namespace Machine

/-! ### Frames -/

/-- `s` with another engine state and another count of free values: all that an event changes beside the two ports. -/
def State.withEngine (s : State) (e : Engine (preset s.variant)) (freeCount : Nat) : State :=
  { s with engine := e, freeCount := freeCount }

/-- A reset between two commands leaves Uninitialized and changes nothing but the engine and the count of free values (R150). -/
theorem applyReset_frame (s : State) :
    ∃ e c, applyReset s = s.withEngine e c ∧ uninitialized e = true := by
  cases h : uninitialized s.engine with
  | true => exact ⟨s.engine, s.freeCount, applyReset_uninitialized h, h⟩
  | false => exact ⟨_, _, applyReset_seeded h, uninitialized_uninitializedEngine _ _⟩

/-- A reset during a command leaves Uninitialized and changes nothing but the engine and the count of free values (R151). -/
theorem abandonCommand_frame (s : State) :
    ∃ e c, abandonCommand s = s.withEngine e c ∧ uninitialized e = true :=
  ⟨_, _, rfl, uninitialized_uninitializedEngine _ _⟩

/-- The frame of a step: the variant stays, the first event is taken, and the event is answered once if it is a command
carried to its end, and not otherwise (R30, R55, R151). -/
theorem step_frame {s t : State} (h : step s = .next t) :
    ∃ e c out, t = (s.withEngine e c).withPorts s.input.tail (s.output ++ out) ∧
      out.length = (s.input.take 1).countP Event.isAnswered := by
  rcases step_cases h with ⟨hi, rfl⟩ | ⟨rest, hi, rfl⟩ | ⟨cw, rest, hi, rfl⟩ | ⟨cw, rest, i, hi, -, he⟩ |
    ⟨cw, rest, e, hi, -, rfl⟩
  · refine ⟨t.engine, t.freeCount, [], ?_, by simp [hi]⟩
    rw [hi, List.tail_nil, List.append_nil, ← hi]
    rfl
  · obtain ⟨e, c, ha, -⟩ := applyReset_frame (setInput s rest)
    refine ⟨e, c, [], ?_, by simp [hi, Event.isAnswered]⟩
    rw [ha, hi, List.append_nil]
    rfl
  · obtain ⟨e, c, ha, -⟩ := abandonCommand_frame (setInput s rest)
    refine ⟨e, c, [], ?_, by simp [hi, Event.isAnswered]⟩
    rw [ha, hi, List.append_nil]
    rfl
  · obtain ⟨e, resp, rfl⟩ := exec_frame he
    refine ⟨e, s.freeCount, [resp], ?_, by simp [hi, Event.isAnswered]⟩
    rw [hi]
    rfl
  · refine ⟨s.engine, s.freeCount, [responseWord (statusOfFault .illegalCommand) 0#64], ?_,
      by simp [hi, Event.isAnswered]⟩
    rw [hi]
    rfl

/-- The frame of a run: the variant stays, every event is taken, each command carried to its end is answered once. -/
theorem deliver_frame (s : State) (es : List Event) :
    ∃ e c out, deliver s es = .next ((s.withEngine e c).withPorts [] out) ∧
      out.length = es.countP Event.isAnswered := by
  induction es generalizing s with
  | nil => exact ⟨s.engine, s.freeCount, [], rfl, rfl⟩
  | cons ev es ih =>
    obtain ⟨t, ht⟩ := stepSafe (s.withPorts [ev] [])
    obtain ⟨e, c, out, rfl, hout⟩ := step_frame ht
    obtain ⟨e', c', out', hrun, hout'⟩ := ih (s.withEngine e c)
    refine ⟨e', c', out ++ out', deliver_cons ht hrun, ?_⟩
    rw [List.length_append, hout, hout', ← List.countP_append]
    rfl

/-- A run over two lists of events is the run over the first followed by the run over the second. -/
theorem deliver_append {es es' : List Event} {s t u : State} (ht : deliver s es = .next t)
    (hu : deliver t es' = .next u) : deliver s (es ++ es') = .next (u.withPorts [] (t.output ++ u.output)) := by
  induction es generalizing s t with
  | nil =>
    cases (deliver_nil s).symm.trans ht
    obtain ⟨e, c, out, hrun, -⟩ := deliver_frame s es'
    cases hrun.symm.trans hu
    exact hrun
  | cons ev es ih =>
    obtain ⟨t₁, h₁⟩ := stepSafe (s.withPorts [ev] [])
    obtain ⟨_, _, _, h₂, -⟩ := deliver_frame t₁ es
    cases (deliver_cons h₁ h₂).symm.trans ht
    refine (deliver_cons h₁ (ih h₂ hu)).trans ?_
    simp

/-! ### Entering and leaving Uninitialized -/

/-- SEED leaves a Seeded engine (R79). -/
theorem uninitialized_seedEngine (p : Preset) (operand : BitVec 64) : uninitialized (seedEngine p operand) = false :=
  (not_uninitialized_iff _).2 (Nat.le_of_eq rfl)

/-- A cursor that advances from below n stays out of n+1 (R110). -/
theorem uninitialized_advance {p : Preset} (e : Engine p) (h : e.cursor.val < p.n) :
    uninitialized (advance e h) = false := (not_uninitialized_iff _).2 h

/-- EXTRACT neither makes an engine Uninitialized nor ends that (R102, R110). -/
theorem exec_extract_uninitialized_eq {s t : State} (h : exec .extract s = .next t) :
    uninitialized t.engine = uninitialized s.engine := by
  cases hu : uninitialized s.engine with
  | true => rw [exec_extract_uninitialized hu] at h; cases h; exact hu
  | false =>
    rw [exec_extract_seeded hu] at h
    cases h
    exact uninitialized_advance (twistIfExhausted s.engine) (twistIfExhausted_cursor_lt (preset_n_pos s.variant) _)

/-- What a step makes of the two states Uninitialized and Seeded: it keeps the one there, unless its event is a reset,
which leaves Uninitialized, or a SEED, which leaves Seeded (R25). -/
theorem step_uninitialized_cases {s t : State} (h : step s = .next t) :
    uninitialized t.engine = uninitialized s.engine ∨
    (uninitialized t.engine = true ∧ ∃ ev rest, s.input = ev :: rest ∧ ev.isReset = true) ∨
    (uninitialized t.engine = false ∧ ∃ ev rest, s.input = ev :: rest ∧ ev.isSeed = true) := by
  rcases step_cases h with ⟨-, rfl⟩ | ⟨rest, hi, rfl⟩ | ⟨cw, rest, hi, rfl⟩ | ⟨cw, rest, i, hi, hd, he⟩ |
    ⟨cw, rest, e, -, -, rfl⟩
  · exact .inl rfl
  · obtain ⟨e, c, ha, hu⟩ := applyReset_frame (setInput s rest)
    exact .inr (.inl ⟨by rw [ha]; exact hu, _, rest, hi, rfl⟩)
  · obtain ⟨e, c, ha, hu⟩ := abandonCommand_frame (setInput s rest)
    exact .inr (.inl ⟨by rw [ha]; exact hu, _, rest, hi, rfl⟩)
  · cases i with
    | seed operand =>
      rw [exec_seed] at he
      cases he
      have hseed : Event.isSeed (.command cw) = true := by simp [Event.isSeed, opcodeField_of_decode_seed hd]
      exact .inr (.inr ⟨uninitialized_seedEngine _ _, _, rest, hi, hseed⟩)
    | extract => exact .inl (exec_extract_uninitialized_eq (s := setInput s rest) he)
  · exact .inl rfl

/-! ### What the words hold while Uninitialized -/

/-- No command can tell the two engines apart: they are equal, or both are Uninitialized, whatever their words (R35). -/
def EnginesAgree {p : Preset} (e e' : Engine p) : Prop :=
  e = e' ∨ (uninitialized e = true ∧ uninitialized e' = true)

/-- A command word run on an engine gives it a next state and one response; the count of free values neither enters nor
changes. -/
theorem step_command (s : State) (e : Engine (preset s.variant)) (cw : CommandWord) :
    ∃ f resp, ∀ c, step ((s.withEngine e c).withPorts [.command cw] []) =
      .next ((s.withEngine f c).withPorts [] [resp]) := by
  match hd : decode cw with
  | .error _ => exact ⟨e, _, fun _ => step_illegal rfl hd⟩
  | .ok (.seed operand) =>
    exact ⟨seedEngine (preset s.variant) operand, responseWord statusOk 0#64, fun _ => step_legal rfl hd⟩
  | .ok .extract =>
    cases hu : uninitialized e with
    | true => exact ⟨e, _, fun _ => (step_legal rfl hd).trans (exec_extract_uninitialized hu)⟩
    | false =>
      have hlt := twistIfExhausted_cursor_lt (preset_n_pos s.variant) e
      exact ⟨advance (twistIfExhausted e) hlt,
        responseWord statusOk (dataOfWord (temper (preset s.variant) (readWord (twistIfExhausted e).words ⟨_, hlt⟩))),
        fun c => (step_legal rfl hd).trans (exec_extract_seeded (s := (s.withEngine e c).withPorts [] []) hu)⟩

/-- Two Uninitialized engines answer a command word alike and then agree: SEED overwrites every word, EXTRACT and an
illegal word read none (R82, R102, R131). -/
theorem step_command_uninitialized (s : State) {e e' : Engine (preset s.variant)} (hu : uninitialized e = true)
    (hu' : uninitialized e' = true) (cw : CommandWord) (c c' : Nat) :
    ∃ f f' resp, step ((s.withEngine e c).withPorts [.command cw] []) = .next ((s.withEngine f c).withPorts [] [resp]) ∧
      step ((s.withEngine e' c').withPorts [.command cw] []) = .next ((s.withEngine f' c').withPorts [] [resp]) ∧
      EnginesAgree f f' := by
  match hd : decode cw with
  | .error _ => exact ⟨e, e', _, step_illegal rfl hd, step_illegal rfl hd, .inr ⟨hu, hu'⟩⟩
  | .ok (.seed operand) => exact ⟨_, _, _, step_legal rfl hd, step_legal rfl hd, .inl rfl⟩
  | .ok .extract =>
    exact ⟨e, e', _, (step_legal rfl hd).trans (exec_extract_uninitialized hu),
      (step_legal rfl hd).trans (exec_extract_uninitialized hu'), .inr ⟨hu, hu'⟩⟩

/-- Engines that agree give the same responses to one event, and agree after it. -/
theorem step_agree (s : State) {e e' : Engine (preset s.variant)} (h : EnginesAgree e e') (ev : Event) (c c' : Nat) :
    ∃ f f' d d' out, step ((s.withEngine e c).withPorts [ev] []) = .next ((s.withEngine f d).withPorts [] out) ∧
      step ((s.withEngine e' c').withPorts [ev] []) = .next ((s.withEngine f' d').withPorts [] out) ∧
      EnginesAgree f f' := by
  cases ev with
  | reset =>
    obtain ⟨f, d, ha, hf⟩ := applyReset_frame ((s.withEngine e c).withPorts [] [])
    obtain ⟨f', d', ha', hf'⟩ := applyReset_frame ((s.withEngine e' c').withPorts [] [])
    exact ⟨f, f', d, d', [], (step_reset rfl).trans (congrArg _ ha), (step_reset rfl).trans (congrArg _ ha'),
      .inr ⟨hf, hf'⟩⟩
  | commandCutByReset cw =>
    obtain ⟨f, d, ha, hf⟩ := abandonCommand_frame ((s.withEngine e c).withPorts [] [])
    obtain ⟨f', d', ha', hf'⟩ := abandonCommand_frame ((s.withEngine e' c').withPorts [] [])
    exact ⟨f, f', d, d', [], (step_cut rfl).trans (congrArg _ ha), (step_cut rfl).trans (congrArg _ ha'),
      .inr ⟨hf, hf'⟩⟩
  | command cw =>
    rcases h with rfl | ⟨hu, hu'⟩
    · obtain ⟨f, resp, hstep⟩ := step_command s e cw
      exact ⟨f, f, c, c', [resp], hstep c, hstep c', .inl rfl⟩
    · obtain ⟨f, f', resp, hstep, hstep', hf⟩ := step_command_uninitialized s hu hu' cw c c'
      exact ⟨f, f', c, c', [resp], hstep, hstep', hf⟩

/-- Engines that agree give the same responses to every list of events. -/
theorem deliver_agree (es : List Event) (s : State) {e e' : Engine (preset s.variant)} (h : EnginesAgree e e')
    (c c' : Nat) : ∃ t t', deliver (s.withEngine e c) es = .next t ∧ deliver (s.withEngine e' c') es = .next t' ∧
      t.output = t'.output := by
  induction es generalizing e e' c c' with
  | nil => exact ⟨_, _, deliver_nil _, deliver_nil _, rfl⟩
  | cons ev es ih =>
    obtain ⟨f, f', d, d', out, hstep, hstep', hf⟩ := step_agree s h ev c c'
    obtain ⟨t, t', ht, ht', hout⟩ := ih hf d d'
    exact ⟨_, _, deliver_cons hstep ht, deliver_cons hstep' ht', congrArg (out ++ ·) hout⟩

/-! ### SEED and the commands after it -/

/-- The operand of SEED enters through its value modulo `2^W` (R58, R82). -/
theorem seedEngine_congr {p : Preset} {operand operand' : BitVec 64}
    (h : operand.toNat % 2 ^ p.W = operand'.toNat % 2 ^ p.W) : seedEngine p operand = seedEngine p operand' := by
  have hv : seedValue p operand = seedValue p operand' := BitVec.eq_of_toNat_eq (by simpa using h)
  simp only [seedEngine, hv]

/-- Commands on an engine give it a next state and one response each; the count of free values neither enters nor
changes. -/
theorem deliver_commands (cws : List CommandWord) (s : State) (e : Engine (preset s.variant)) :
    ∃ f out, out.length = cws.length ∧
      ∀ c, deliver (s.withEngine e c) (cws.map .command) = .next ((s.withEngine f c).withPorts [] out) := by
  induction cws generalizing e with
  | nil => exact ⟨e, [], rfl, fun _ => rfl⟩
  | cons cw cws ih =>
    obtain ⟨f, resp, hstep⟩ := step_command s e cw
    obtain ⟨g, out, hlen, hrun⟩ := ih f
    exact ⟨g, resp :: out, congrArg (· + 1) hlen, fun c => deliver_cons (hstep c) (hrun c)⟩

/-- One SEED, on any engine (R75 to R80). -/
theorem step_seed (s : State) (e : Engine (preset s.variant)) (operand : BitVec 64) (c : Nat) :
    step ((s.withEngine e c).withPorts [.command (encode (.seed operand))] []) =
      .next ((s.withEngine (seedEngine (preset s.variant) operand) c).withPorts [] [responseWord statusOk 0#64]) :=
  step_legal (i := .seed operand) rfl (decode_encode _)

/-- A SEED and the commands after it forget the engine before: what they leave and answer depends on the variant and
on the operand modulo `2^W` alone (R36). -/
theorem deliver_seed_commands (s : State) (operand : BitVec 64) (cws : List CommandWord) :
    ∃ f out, out.length = cws.length + 1 ∧
      ∀ operand' : BitVec 64, operand.toNat % 2 ^ (preset s.variant).W = operand'.toNat % 2 ^ (preset s.variant).W →
        ∀ e c, deliver (s.withEngine e c) (.command (encode (.seed operand')) :: cws.map .command) =
          .next ((s.withEngine f c).withPorts [] out) := by
  obtain ⟨f, out, hlen, hrun⟩ := deliver_commands cws s (seedEngine (preset s.variant) operand)
  refine ⟨f, responseWord statusOk 0#64 :: out, congrArg (· + 1) hlen, fun operand' hop e c => ?_⟩
  rw [seedEngine_congr hop] at hrun
  exact deliver_cons (step_seed s e operand' c) (hrun c)

/-- The reset input leaves the state after reset as it is (R150). -/
theorem step_reset_resetOf (v : Variant) :
    step ((State.resetOf v).withPorts [.reset] []) = .next (State.resetOf v) :=
  (step_reset rfl).trans (congrArg _ (applyReset_uninitialized (uninitialized_uninitializedEngine _ _)))

/-! ### The obligations -/

/-- Settles O6: the fields of the reset state, and the two predicates read off its cursor. -/
theorem resetLeavesUninitialized : Obligations.ResetLeavesUninitialized := by
  intro v
  have hu : uninitialized (State.resetOf v).engine = true := uninitialized_uninitializedEngine _ _
  exact ⟨rfl, rfl, fun i => readWord_tabulateWords _ i, hu, exhausted_of_uninitialized _ hu, rfl, rfl, rfl⟩

/-- Settles O31, by the frame of a step. -/
theorem variantNeverChanges : Obligations.VariantNeverChanges := by
  intro s t h
  obtain ⟨e, c, out, rfl, -⟩ := step_frame h
  rfl

/-- Settles O32, by the three cases of a step. -/
theorem onlyResetEntersAndOnlySeedLeaves : Obligations.OnlyResetEntersAndOnlySeedLeaves := by
  intro s t h
  rcases step_uninitialized_cases h with heq | ⟨ht, hreset⟩ | ⟨ht, hseed⟩
  · exact ⟨fun hs ht => by simp [heq, hs] at ht, fun hs ht => by simp [heq, hs] at ht⟩
  · exact ⟨fun _ _ => hreset, fun _ ht' => by simp [ht] at ht'⟩
  · exact ⟨fun _ ht' => by simp [ht] at ht', fun _ _ => hseed⟩

/-- After reset no response is emitted and the engine is Uninitialized, so the invariant holds. -/
theorem resetOf_inv (v : Variant) : (State.resetOf v).Inv where
  responsesLegal := by simp [ResponsesLegal]
  onSeedSequence := .inl (uninitialized_uninitializedEngine _ _)

/-- Settles O33. -/
theorem resetMeetsTheInvariant : Obligations.ResetMeetsTheInvariant := ⟨resetOf_inv, resetOf_inv instanceVariant⟩

/-- Settles O37, by the agreement that every event keeps. -/
theorem unspecifiedWordsAreNeverSeen : Obligations.UnspecifiedWordsAreNeverSeen := fun v _ _ c c' es hu hu' =>
  deliver_agree es (State.resetOf v) (.inr ⟨hu, hu'⟩) c c'

/-- Settles O40: the run is cut before the SEED, and the two runs from there are one. -/
theorem seedRestartsLikeAFreshEngine : Obligations.SeedRestartsLikeAFreshEngine := by
  intro s before after operand operand' hop
  obtain ⟨e, c, pre, hbefore, hpre⟩ := deliver_frame s before
  obtain ⟨f, out, hout, hrun⟩ := deliver_seed_commands s operand after
  have hfresh : deliver (State.resetOf s.variant) (.reset :: .command (encode (.seed operand')) :: after.map .command) =
      .next { State.resetOf s.variant with engine := f, input := [], output := out } :=
    deliver_cons (step_reset_resetOf s.variant) (hrun operand' hop (uninitializedEngine (preset s.variant) 0) 1)
  exact ⟨f, c, pre, out, deliver_append hbefore (hrun operand rfl e c), hfresh, hpre, hout⟩

end Machine
end Sys2Proof
end

-- What follows settles the obligations of spec/30_encoding.md (O2, O3, O4, O5, O27, O28, O34, O35, O41).
section
/-! PROOF. The decoder case by case and its agreement with the encoder (R57 to R66), operands as numbers (R72), the steps on
a legal and on an illegal word, and the invariant of every step (R25, R26, R71, R114). -/

namespace Sys2Proof

/-! ### The decoder -/

/-- The opcode of a word, compared as a number. -/
theorem opcodeField_eq_iff (cw : CommandWord) (op : BitVec 8) : opcodeField cw = op ↔ cw.toNat / 2 ^ 64 = op.toNat := by
  rw [← BitVec.toNat_inj, opcodeField_toNat]

/-- The operand of a word, compared as a number. -/
theorem operandField_eq_iff (cw : CommandWord) (operand : BitVec 64) :
    operandField cw = operand ↔ cw.toNat % 2 ^ 64 = operand.toNat := by
  rw [← BitVec.toNat_inj, operandField_toNat]

/-- The operand of a word is its low 64 bits (R57). -/
theorem operandField_eq_ofNat (cw : CommandWord) : operandField cw = BitVec.ofNat 64 (cw.toNat % 2 ^ 64) := by
  rw [← operandField_toNat, BitVec.ofNat_toNat, BitVec.setWidth_eq]

/-- A command word is its two fields (R57). -/
theorem opcodeField_append_operandField (cw : CommandWord) : (opcodeField cw ++ operandField cw : BitVec 72) = cw := by
  apply BitVec.eq_of_toNat_eq
  rw [toNat_fields, opcodeField_toNat, operandField_toNat, Nat.div_add_mod']

/-- R65, first test: opcode 0x01. -/
theorem decode_seed {cw : CommandWord} (h : opcodeField cw = 0x01#8) : decode cw = .ok (.seed (operandField cw)) := by
  simp [decode, h]

/-- R65, second test: opcode 0x02 with operand zero. -/
theorem decode_extract {cw : CommandWord} (h : opcodeField cw = 0x02#8) (h0 : operandField cw = 0#64) :
    decode cw = .ok .extract := by
  simp [decode, h, h0]

/-- R66: opcode 0x02 with another operand. -/
theorem decode_extractOperand {cw : CommandWord} (h : opcodeField cw = 0x02#8) (h0 : operandField cw ≠ 0#64) :
    decode cw = .error .extractOperand := by
  simp [decode, h, h0]

/-- R66: every other opcode. -/
theorem decode_reservedOpcode {cw : CommandWord} (h1 : opcodeField cw ≠ 0x01#8) (h2 : opcodeField cw ≠ 0x02#8) :
    decode cw = .error .reservedOpcode := by
  simp [decode, h1, h2]

/-- Encoding a decoded word gives the word back (R65). -/
theorem encode_of_decode {cw : CommandWord} {i : Instr} (h : decode cw = .ok i) : encode i = cw := by
  by_cases h1 : opcodeField cw = 0x01#8
  · cases (decode_seed h1).symm.trans h
    exact (congrArg (· ++ operandField cw) h1.symm).trans (opcodeField_append_operandField cw)
  · by_cases h2 : opcodeField cw = 0x02#8
    · by_cases h0 : operandField cw = 0#64
      · cases (decode_extract h2 h0).symm.trans h
        exact (congrArg₂ (· ++ ·) h2.symm h0.symm).trans (opcodeField_append_operandField cw)
      · cases (decode_extractOperand h2 h0).symm.trans h
    · cases (decode_reservedOpcode h1 h2).symm.trans h

/-- The words that decode to a command are the one word of that command (R65). -/
theorem decode_eq_ok_iff (cw : CommandWord) (i : Instr) : decode cw = .ok i ↔ encode i = cw := by
  refine ⟨encode_of_decode, ?_⟩
  rintro rfl
  exact decode_encode i

/-- SEED is selected by its opcode alone (R63). -/
theorem exists_decode_seed_iff (cw : CommandWord) : (∃ v, decode cw = .ok (.seed v)) ↔ opcodeField cw = 0x01#8 :=
  ⟨fun ⟨_, h⟩ => opcodeField_of_decode_seed h, fun h => ⟨_, decode_seed h⟩⟩

/-- The word of SEED as a number (R63). -/
theorem encode_seed (v : BitVec 64) : encode (.seed v) = BitVec.ofNat 72 (2 ^ 64 + v.toNat) := by
  apply BitVec.eq_of_toNat_eq
  have hv := v.isLt
  rw [encode, toNat_fields, BitVec.toNat_ofNat]
  simp only [opcodeOf, operandOf, BitVec.toNat_ofNat]
  omega

/-- EXTRACT has one word (R64). -/
theorem encode_extract : encode .extract = 0x020000000000000000#72 := by decide

/-- The mask of SEED keeps the opcode and clears the operand (R63). -/
theorem and_seedMask (cw : CommandWord) :
    cw &&& 0xFF0000000000000000#72 = (opcodeField cw ++ 0#64 : BitVec 72) := by
  have hmask : 0xFF0000000000000000#72 = (BitVec.allOnes 8 ++ 0#64 : BitVec 72) := by decide
  calc cw &&& 0xFF0000000000000000#72
      = (opcodeField cw ++ operandField cw : BitVec 72) &&& (BitVec.allOnes 8 ++ 0#64) := by
        rw [opcodeField_append_operandField, hmask]
    _ = opcodeField cw ++ 0#64 := by rw [BitVec.and_append, BitVec.and_allOnes, BitVec.and_zero]

/-- The mask and match of SEED test the opcode (R63). -/
theorem and_seedMask_eq_match_iff (cw : CommandWord) :
    cw &&& 0xFF0000000000000000#72 = 0x010000000000000000#72 ↔ opcodeField cw = 0x01#8 := by
  have hmatch : 0x010000000000000000#72 = (0x01#8 ++ 0#64 : BitVec 72) := by decide
  rw [and_seedMask, hmatch]
  refine ⟨fun h => ?_, fun h => by rw [h]⟩
  rw [← extract_high_append (opcodeField cw) 0#64, h, extract_high_append]

/-- The word of EXTRACT is the only one that decodes to it (R64). -/
theorem decode_eq_extract_iff (cw : CommandWord) : decode cw = .ok .extract ↔ cw = 0x020000000000000000#72 := by
  rw [decode_eq_ok_iff, encode_extract, eq_comm]

/-- The mask of EXTRACT keeps the whole word (R64). -/
theorem and_extractMask (cw : CommandWord) : cw &&& 0xFFFFFFFFFFFFFFFFFF#72 = cw :=
  BitVec.and_allOnes (x := cw)

/-- A word that R65 does not decode is rejected (R66). -/
theorem exists_decode_error {cw : CommandWord} (h1 : cw.toNat / 2 ^ 64 ≠ 1)
    (h2 : cw.toNat / 2 ^ 64 = 2 → cw.toNat % 2 ^ 64 ≠ 0) : ∃ e, decode cw = .error e := by
  have hop1 : opcodeField cw ≠ 0x01#8 := mt (opcodeField_eq_iff cw 0x01#8).1 h1
  by_cases hop2 : opcodeField cw = 0x02#8
  · have hop : operandField cw ≠ 0#64 :=
      mt (operandField_eq_iff cw 0#64).1 (h2 ((opcodeField_eq_iff cw 0x02#8).1 hop2))
    exact ⟨_, decode_extractOperand hop2 hop⟩
  · exact ⟨_, decode_reservedOpcode hop1 hop2⟩

/-- What the decoder reads from a table word is what it reads from the command word of those bits. -/
theorem decode_wordOfTable {nbits w : Nat} {i : Instr} (h : decodeTableWord nbits w = some i) :
    decode (wordOfTable nbits w) = .ok i := by
  unfold decodeTableWord at h
  split at h
  · rename_i hd
    cases h
    exact hd
  · cases h

/-- Settles O3: the four tests by the cases of the decoder, the rest by the one word that decodes to each command. -/
theorem decoderIsTheOpcodeMap : Obligations.DecoderIsTheOpcodeMap := by
  refine ⟨fun cw => ⟨fun h1 => ?_, fun h2 h0 => ?_, fun h2 h0 => ?_, fun h1 h2 => ?_⟩, decode_encode,
    fun cw i => encode_of_decode, ?_⟩
  · rw [← operandField_eq_ofNat]
    exact decode_seed ((opcodeField_eq_iff cw 0x01#8).2 h1)
  · exact decode_extract ((opcodeField_eq_iff cw 0x02#8).2 h2) ((operandField_eq_iff cw 0#64).2 h0)
  · exact decode_extractOperand ((opcodeField_eq_iff cw 0x02#8).2 h2) (mt (operandField_eq_iff cw 0#64).1 h0)
  · exact decode_reservedOpcode (mt (opcodeField_eq_iff cw 0x01#8).1 h1) (mt (opcodeField_eq_iff cw 0x02#8).1 h2)
  · rintro cw cw' i _ h h' hne rfl
    exact hne ((encode_of_decode h).symm.trans (encode_of_decode h'))

/-- Settles O4: the mask of SEED leaves the opcode, that of EXTRACT the whole word. -/
theorem masksSelectTheCommands : Obligations.MasksSelectTheCommands := by
  have hseed : ∀ v : BitVec 64, decode (BitVec.ofNat 72 (2 ^ 64 + v.toNat)) = .ok (.seed v) := fun v => by
    rw [← encode_seed, decode_encode]
  refine ⟨fun cw => ?_, fun cw => ?_, hseed, hseed 5489#64, decode_eq_extract_iff⟩
  · rw [exists_decode_seed_iff, and_seedMask_eq_match_iff]
  · rw [and_extractMask, decode_eq_extract_iff]

/-- Settles O2: eight closed words, decoded by evaluation. -/
theorem writtenOutWordsDecode : Obligations.WrittenOutWordsDecode := by
  unfold Obligations.WrittenOutWordsDecode
  decide

namespace Machine

/-! ### Operands -/

/-- A word fits in the 64 bits of a data field (R60). -/
theorem preset_W_le (v : Variant) : (preset v).W ≤ 64 := by cases v <;> decide

/-- A host presents an integer modulo `2^64`, negative ones too (R72). -/
theorem presentSeed_toNat (z : Int) : ((presentSeed z).toNat : Int) = z % 2 ^ 64 := by
  rw [presentSeed, BitVec.toNat_ofInt, Int.toNat_of_nonneg (Int.emod_nonneg z (by decide))]
  rfl

/-- Settles O5: reduction modulo `2^64` and then modulo `2^W` is reduction modulo `2^W`, since W is at most 64. -/
theorem presentedSeedIsReduced : Obligations.PresentedSeedIsReduced := by
  intro v z
  refine ⟨presentSeed_toNat z, ?_⟩
  rw [seedValue_toNat, Int.natCast_mod, presentSeed_toNat, Nat.cast_pow]
  exact Int.emod_emod_of_dvd z (pow_dvd_pow 2 (preset_W_le v))

/-! ### The step on a command word, runs -/

/-- Settles O28: the word is rejected, and raising the fault changes the responses alone. -/
theorem illegalWordRaisesIllegalCommand : Obligations.IllegalWordRaisesIllegalCommand := by
  intro s cw rest hin h1 h2
  obtain ⟨_, hd⟩ := exists_decode_error h1 h2
  exact step_illegal hin hd

/-- Settles O35, by the frame of a run. -/
theorem oneResponsePerCommand : Obligations.OneResponsePerCommand := by
  intro s es
  obtain ⟨e, c, out, hrun, hout⟩ := deliver_frame s es
  exact ⟨_, hrun, rfl, hout⟩

/-- Settles O27: both parts are the step on a legal word. -/
theorem stepRunsTheDecodedCommand : Obligations.StepRunsTheDecodedCommand :=
  ⟨fun _ _ _ _ hin hd => step_legal hin hd, fun s w _ h =>
    step_legal (presentWord_input (wordOfTable 72 w) s) (decode_wordOfTable h)⟩

/-- Settles O41: a reset that finds the engine Uninitialized, then a SEED. -/
theorem constructSeedsAFreshInstance : Obligations.ConstructSeedsAFreshInstance := by
  intro v value
  have hseed := step_seed (State.resetOf v) (uninitializedEngine (preset v) 0) value 1
  exact ⟨seedEngine (preset v) value, deliver_cons (step_reset_resetOf v) (deliver_cons hseed (deliver_nil _)), rfl, rfl⟩

/-! ### The invariant -/

/-- OK with a number below `2^W` is a response that exists (R60). -/
theorem legalResponse_ok {p : Preset} {d : BitVec 64} (h : d.toNat < 2 ^ p.W) :
    legalResponse p (responseWord statusOk d) = true := by
  have hnat : (responseWord statusOk d).toNat = d.toNat := by simp [responseWord, toNat_fields, statusOk]
  simp [legalResponse, hnat, h]

/-- So is each fault with zero data (R61). -/
theorem legalResponse_fault (p : Preset) (f : Fault) :
    legalResponse p (responseWord (statusOfFault f) 0#64) = true := by
  cases f with
  | illegalCommand =>
    have h : responseWord (statusOfFault .illegalCommand) 0#64 = 0x010000000000000000#72 := by decide
    simp [legalResponse, h]
  | notSeeded =>
    have h : responseWord (statusOfFault .notSeeded) 0#64 = 0x020000000000000000#72 := by decide
    simp [legalResponse, h]

/-- OK with a word of the array is a response that exists (R60). -/
theorem legalResponse_word (v : Variant) (y : Word (preset v).W) :
    legalResponse (preset v) (responseWord statusOk (dataOfWord y)) = true :=
  legalResponse_ok (by rw [dataOfWord_toNat (preset_W_le v)]; exact y.isLt)

/-- The responses do not depend on the engine. -/
theorem ResponsesLegal.setEngine {s : State} (hs : ResponsesLegal s) (e : Engine (preset s.variant)) :
    ResponsesLegal (setEngine s e) := hs

/-- Emitting a response that exists keeps all responses such. -/
theorem ResponsesLegal.respond {s : State} (hs : ResponsesLegal s) {st : BitVec 8} {d : BitVec 64}
    (h : legalResponse (preset s.variant) (responseWord st d) = true) : ResponsesLegal (respond st d s) := by
  intro r hr
  rcases List.mem_append.1 hr with hold | hnew
  · exact hs r hold
  · rw [List.mem_singleton.1 hnew]
    exact h

/-- A fault keeps the invariant: the engine is left alone and its response exists (R136). -/
theorem State.Inv.raise {s : State} (hs : s.Inv) (f : Fault) : (raise f s).Inv where
  responsesLegal := hs.responsesLegal.respond (legalResponse_fault _ f)
  onSeedSequence := hs.onSeedSequence

/-- Waiting for other events keeps the invariant. -/
theorem State.Inv.setInput {s : State} (hs : s.Inv) (es : List Event) : (setInput s es).Inv where
  responsesLegal := hs.responsesLegal
  onSeedSequence := hs.onSeedSequence

/-- Becoming Uninitialized keeps the invariant (R34). -/
theorem State.Inv.withEngine {s : State} (hs : s.Inv) {e : Engine (preset s.variant)} (c : Nat)
    (hu : uninitialized e = true) : (s.withEngine e c).Inv where
  responsesLegal := hs.responsesLegal
  onSeedSequence := .inl hu

/-- SEED starts the sequence of its seed value, exhausted (R79). -/
theorem seed_inv {s : State} (hs : s.Inv) (operand : BitVec 64) :
    (respond statusOk 0#64 (setEngine s (seedEngine (preset s.variant) operand))).Inv where
  responsesLegal := (hs.responsesLegal.setEngine _).respond (legalResponse_ok (Nat.two_pow_pos _))
  onSeedSequence :=
    .inr ⟨seedValue (preset s.variant) operand, 0, rfl, Nat.le_refl _, fun _ => rfl, preset_n_pos s.variant⟩

/-- EXTRACT of a Seeded engine moves along the sequence: within a pass the cursor advances, at its end the next pass runs
and the cursor is 1 (R103, R110, R114). -/
theorem extract_inv {s t : State} (hs : s.Inv) (hu : uninitialized s.engine = false) (h : exec .extract s = .next t) :
    t.Inv := by
  obtain hun | ⟨s0, j, hwords, hle, hj, -⟩ := hs.onSeedSequence
  · simp [hun] at hu
  rcases Nat.lt_or_eq_of_le hle with hlt | heq
  · cases (exec_extract_of_lt hlt).symm.trans h
    have hj0 : j = 0 → s.engine.cursor.val + 1 = (preset s.variant).n := fun h0 => absurd (hj h0) (Nat.ne_of_lt hlt)
    exact ⟨(hs.responsesLegal.setEngine _).respond (legalResponse_word _ _),
      .inr ⟨s0, j, hwords, hlt, hj0, Nat.le_add_left 1 _⟩⟩
  · cases (exec_extract_of_eq heq).symm.trans h
    have hpass : twistWords s.engine.words = twistTimes (j + 1) (seedWords (preset s.variant) s0) :=
      congrArg twistWords hwords
    exact ⟨(hs.responsesLegal.setEngine _).respond (legalResponse_word _ _),
      .inr ⟨s0, j + 1, hpass, preset_n_pos s.variant, fun h0 => absurd h0 (Nat.succ_ne_zero j), Nat.le_refl 1⟩⟩

/-- Both commands keep the invariant. -/
theorem exec_inv {i : Instr} {s t : State} (hs : s.Inv) (h : exec i s = .next t) : t.Inv := by
  cases i with
  | seed operand =>
    cases (exec_seed operand s).symm.trans h
    exact seed_inv hs operand
  | extract =>
    cases hu : uninitialized s.engine with
    | true =>
      cases (exec_extract_uninitialized hu).symm.trans h
      exact hs.raise .notSeeded
    | false => exact extract_inv hs hu h

/-- Settles O34, by the cases of a step. -/
theorem everyStepKeepsTheInvariant : Obligations.EveryStepKeepsTheInvariant := by
  intro s t hs h
  rcases step_cases h with ⟨-, rfl⟩ | ⟨rest, -, rfl⟩ | ⟨cw, rest, -, rfl⟩ | ⟨cw, rest, i, -, -, he⟩ |
    ⟨cw, rest, e, -, -, rfl⟩
  · exact hs
  · obtain ⟨e, c, ha, hu⟩ := applyReset_frame (setInput s rest)
    rw [ha]
    exact (hs.setInput rest).withEngine c hu
  · obtain ⟨e, c, ha, hu⟩ := abandonCommand_frame (setInput s rest)
    rw [ha]
    exact (hs.setInput rest).withEngine c hu
  · exact exec_inv (hs.setInput rest) he
  · exact (hs.setInput rest).raise .illegalCommand

end Machine
end Sys2Proof
end

-- What follows settles the obligations of spec/40_seed.md (O10, O11).
section
/-! PROOF. The seeding recurrence as a number (R78), and SEED on any engine (R75 to R82). -/

namespace Sys2Proof.Machine

/-- One step of the seeding recurrence as a number: truncating after the multiply and after the add is truncating once
(R78). -/
theorem seedRecurrence_toNat (p : Preset) (previous : Word p.W) (i : Nat) :
    (seedRecurrence p previous i).toNat =
      (p.f.toNat * (previous.toNat ^^^ previous.toNat / 2 ^ (p.W - 2)) + i) % 2 ^ p.W := by
  rw [seedRecurrence, BitVec.toNat_add, BitVec.toNat_mul, BitVec.toNat_xor, BitVec.toNat_ushiftRight,
    Nat.shiftRight_eq_div_pow, BitVec.toNat_ofNat, ← Nat.add_mod]

/-- Word 0 of the seeded array is the reduced operand (R76, R77). -/
theorem readWord_seedEngine_zero {p : Preset} (operand : BitVec 64) {i : Fin p.n} (hi : i.val = 0) :
    (readWord (seedEngine p operand).words i).toNat = operand.toNat % 2 ^ p.W := by
  rw [seedEngine_words, readWord_seedWords, hi, seedWord, seedValue_toNat]

/-- Every later word of the seeded array comes from the word before it (R78). -/
theorem readWord_seedEngine_succ {p : Preset} (operand : BitVec 64) {i j : Fin p.n} (hij : j.val + 1 = i.val) :
    readWord (seedEngine p operand).words i =
      seedRecurrence p (readWord (seedEngine p operand).words j) i.val := by
  rw [seedEngine_words, readWord_seedWords, readWord_seedWords, ← hij, seedWord]

/-- SEED leaves an exhausted engine (R79). -/
theorem exhausted_seedEngine (p : Preset) (operand : BitVec 64) : exhausted (seedEngine p operand) = true :=
  (exhausted_iff _).2 (Nat.le_of_eq (seedEngine_cursor p operand).symm)

/-- Settles O10: the engine is the seeded one, and its words are read off the recurrence. -/
theorem seedFillsTheArray : Obligations.SeedFillsTheArray := by
  intro operand s
  have hresp : responseWord statusOk 0#64 = 0x000000000000000000#72 := by decide
  refine ⟨seedEngine (preset s.variant) operand, ?_, seedEngine_cursor _ operand, uninitialized_seedEngine _ operand,
    exhausted_seedEngine _ operand, fun i hi => readWord_seedEngine_zero operand hi, fun i j hij => ?_⟩
  · rw [exec_seed, ← hresp]
    rfl
  · rw [readWord_seedEngine_succ operand hij, seedRecurrence_toNat]

/-- Settles O11: the engine SEED leaves depends on the variant and on the operand modulo `2^W` alone. -/
theorem seedForgetsThePast : Obligations.SeedForgetsThePast := by
  intro s e operand operand' hop
  rw [exec_seed, exec_seed, seedEngine_congr hop]
  rfl

end Sys2Proof.Machine
end

-- What follows settles the obligations of spec/41_twist.md (O12, O13, O14, O15, O16, O17, O18, O19, O20, O21).
section
/-! PROOF. One body of the twist as bits and as numbers (R87, R89, R93); what each read of the in-place pass sees (R90), and
what follows from it (R94 to R98). -/

namespace Sys2Proof.Machine

/-! ### The combined word -/

/-- The lower mask has the bits below r (R9). -/
theorem getLsbD_lowerMask {p : Preset} (hr : p.r < p.W) (k : Nat) : p.lowerMask.getLsbD k = decide (k < p.r) := by
  rw [← BitVec.testBit_toNat, lowerMask_toNat hr, Nat.testBit_two_pow_sub_one]

/-- The lower mask selects, bit by bit, which of the two words the combined word follows. -/
theorem getLsbD_combine_mask (p : Preset) (hi lo : Word p.W) {k : Nat} (hk : k < p.W) :
    (combine p hi lo).getLsbD k = if p.lowerMask.getLsbD k then lo.getLsbD k else hi.getLsbD k := by
  rw [combine, BitVec.getLsbD_or, BitVec.getLsbD_and, BitVec.getLsbD_and, Preset.upperMask, BitVec.getLsbD_not]
  cases p.lowerMask.getLsbD k <;> simp [hk]

/-- Bit k of the combined word comes from `lo` below r and from `hi` from r up. -/
theorem getLsbD_combine {p : Preset} (hr : p.r < p.W) (hi lo : Word p.W) {k : Nat} (hk : k < p.W) :
    (combine p hi lo).getLsbD k = if k < p.r then lo.getLsbD k else hi.getLsbD k := by
  rw [getLsbD_combine_mask p hi lo hk, getLsbD_lowerMask hr]
  simp only [decide_eq_true_eq]

/-- The two parts share no bit, since the masks are complements (R9). -/
theorem upperPart_and_lowerPart (p : Preset) (hi lo : Word p.W) :
    (hi &&& p.upperMask) &&& (lo &&& p.lowerMask) = 0#p.W := by
  apply BitVec.eq_of_getLsbD_eq
  intro k hk
  cases h : p.lowerMask.getLsbD k <;> simp [Preset.upperMask, h]

/-- Parts that share no bit are added by combining them. -/
theorem combine_eq_add (p : Preset) (hi lo : Word p.W) :
    combine p hi lo = (hi &&& p.upperMask) + (lo &&& p.lowerMask) :=
  (BitVec.add_eq_or_of_and_eq_zero _ _ (upperPart_and_lowerPart p hi lo)).symm

/-- At each bit one of the two masks is clear, so OR and XOR of the parts agree. -/
theorem combine_eq_xor (p : Preset) (hi lo : Word p.W) :
    combine p hi lo = (hi &&& p.upperMask) ^^^ (lo &&& p.lowerMask) := by
  apply BitVec.eq_of_getLsbD_eq
  intro k hk
  cases h : p.lowerMask.getLsbD k <;> simp [combine, Preset.upperMask, h]

/-- A word is its own upper part above its own lower part. -/
theorem combine_self (p : Preset) (x : Word p.W) : combine p x x = x := by
  apply BitVec.eq_of_getLsbD_eq
  intro k hk
  rw [getLsbD_combine_mask p x x hk, ite_self]

/-- The combined word as the sum of the numbers of its parts. -/
theorem combine_toNat_eq_add (p : Preset) (hi lo : Word p.W) :
    (combine p hi lo).toNat = (hi &&& p.upperMask).toNat + (lo &&& p.lowerMask).toNat := by
  rw [combine_eq_add, BitVec.toNat_add_of_and_eq_zero (upperPart_and_lowerPart p hi lo)]

/-- The lower part is the remainder modulo `2^r`. -/
theorem lowerPart_toNat {p : Preset} (hr : p.r < p.W) (x : Word p.W) :
    (x &&& p.lowerMask).toNat = x.toNat % 2 ^ p.r := by
  rw [BitVec.toNat_and, lowerMask_toNat hr, Nat.and_two_pow_sub_one_eq_mod]

/-- The upper part is what the lower part leaves of the word. -/
theorem upperPart_toNat {p : Preset} (hr : p.r < p.W) (x : Word p.W) :
    (x &&& p.upperMask).toNat = x.toNat / 2 ^ p.r * 2 ^ p.r := by
  have hparts : x.toNat = (x &&& p.upperMask).toNat + x.toNat % 2 ^ p.r := by
    rw [← lowerPart_toNat hr, ← combine_toNat_eq_add, combine_self]
  have hdiv := Nat.div_add_mod' x.toNat (2 ^ p.r)
  omega

/-- Settles O13: the masks are complements, so the parts share no bit. -/
theorem combineTakesUpperAndLowerBits : Obligations.CombineTakesUpperAndLowerBits := by
  intro p hr hi lo
  refine ⟨fun k hk => getLsbD_combine hr hi lo hk, ?_, combine_eq_xor p hi lo, combine_eq_add p hi lo⟩
  rw [combine_toNat_eq_add, upperPart_toNat hr, lowerPart_toNat hr]

/-! ### The matrix step and the new word -/

/-- The matrix step as one XOR of the shifted word and of the constant that bit 0 selects (R89). -/
theorem matrixStep_eq_xor (p : Preset) (x : Word p.W) :
    matrixStep p x = (x >>> 1) ^^^ (if x.getLsbD 0 then p.a else 0#p.W) := by
  cases h : x.getLsbD 0 <;> simp [matrixStep, h]

/-- The matrix step as a number. -/
theorem matrixStep_toNat (p : Preset) (x : Word p.W) :
    (matrixStep p x).toNat = x.toNat / 2 ^^^ (if x.toNat % 2 = 1 then p.a.toNat else 0) := by
  have hodd : x.getLsbD 0 = decide (x.toNat % 2 = 1) := by rw [← BitVec.testBit_toNat, Nat.testBit_zero]
  rw [matrixStep_eq_xor, BitVec.toNat_xor, BitVec.toNat_ushiftRight, Nat.shiftRight_one, hodd]
  by_cases h : x.toNat % 2 = 1 <;> simp [h]

/-- The shift is linear, and so is the choice of a in bit 0 (R93). -/
theorem matrixStep_xor (p : Preset) (x y : Word p.W) :
    matrixStep p (x ^^^ y) = matrixStep p x ^^^ matrixStep p y := by
  have hchoice : (if (x ^^^ y).getLsbD 0 then p.a else 0#p.W) =
      (if x.getLsbD 0 then p.a else 0#p.W) ^^^ (if y.getLsbD 0 then p.a else 0#p.W) := by
    rw [BitVec.getLsbD_xor]
    cases x.getLsbD 0 <;> cases y.getLsbD 0 <;> simp
  rw [matrixStep_eq_xor, matrixStep_eq_xor p x, matrixStep_eq_xor p y, hchoice, BitVec.ushiftRight_xor_distrib]
  ac_rfl

/-- The new word depends on the first read through its upper part alone (R87). -/
theorem twistedWord_congr_self {p : Preset} {self self' : Word p.W} (h : self &&& p.upperMask = self' &&& p.upperMask)
    (next middle : Word p.W) : twistedWord p self next middle = twistedWord p self' next middle := by
  rw [twistedWord, twistedWord, combine, combine, h]

/-- The third read enters the new word by XOR alone, so different reads give different words (R89). -/
theorem twistedWord_middle_inj {p : Preset} (self next : Word p.W) {middle middle' : Word p.W} :
    twistedWord p self next middle = twistedWord p self next middle' ↔ middle = middle' := BitVec.xor_left_inj _

/-- Three zero reads give a zero word (R98). -/
theorem twistedWord_zero (p : Preset) : twistedWord p 0#p.W 0#p.W 0#p.W = 0#p.W := by
  simp [twistedWord, combine, matrixStep]

/-- Settles O14: bit 0 is below r, so the feedback bit is the next word's. -/
theorem matrixStepHalvesAndFeedsBack : Obligations.MatrixStepHalvesAndFeedsBack := by
  intro p hr1 hr
  refine ⟨matrixStep_toNat p, fun self next middle => ⟨rfl, ?_⟩⟩
  rw [getLsbD_combine hr self next (by omega), if_pos (by omega)]

/-- Settles O15. -/
theorem matrixStepIsLinear : Obligations.MatrixStepIsLinear := matrixStep_xor

/-! ### The reads of a body: old or new words -/

theorem nextIndex_of_lt {p : Preset} {i : Fin p.n} (h : i.val + 1 < p.n) : nextIndex i = ⟨i.val + 1, h⟩ :=
  Fin.ext (Nat.mod_eq_of_lt h)

theorem nextIndex_of_last {p : Preset} {i : Fin p.n} (h : ¬ i.val + 1 < p.n) : nextIndex i = ⟨0, i.pos⟩ := by
  have hlast : i.val + 1 = p.n := by omega
  have hmod : (i.val + 1) % p.n = 0 := by rw [hlast, Nat.mod_self]
  exact Fin.ext hmod

theorem middleIndex_of_lt {p : Preset} {i : Fin p.n} (h : i.val + p.m < p.n) : middleIndex i = ⟨i.val + p.m, h⟩ :=
  Fin.ext (Nat.mod_eq_of_lt h)

theorem middleIndex_of_wrap {p : Preset} (hm : p.m < p.n) {i : Fin p.n} (h : ¬ i.val + p.m < p.n) :
    middleIndex i = ⟨i.val + p.m - p.n, by omega⟩ := by
  have hmod : (i.val + p.m) % p.n = i.val + p.m - p.n := by
    rw [Nat.mod_eq_sub_mod (by omega), Nat.mod_eq_of_lt (by omega)]
  exact Fin.ext hmod

/-- The first read of a body sees the old word. -/
theorem readWord_twistRounds_self {p : Preset} (old : WordArray p) (i : Fin p.n) :
    readWord (firstRounds twistBody i.val (Nat.le_of_lt i.isLt) old) i = readWord old i := by
  rw [readWord_twistRounds, if_neg (Nat.lt_irrefl _)]

/-- The second read sees the old word after it; only the last body sees a new one, word 0. -/
theorem readWord_twistRounds_next {p : Preset} (hn : 1 < p.n) (old : WordArray p) (i : Fin p.n) :
    readWord (firstRounds twistBody i.val (Nat.le_of_lt i.isLt) old) (nextIndex i) =
      if h : i.val + 1 < p.n then readWord old ⟨i.val + 1, h⟩ else readWord (twistWords old) ⟨0, i.pos⟩ := by
  by_cases h : i.val + 1 < p.n
  · rw [dif_pos h, nextIndex_of_lt h, readWord_twistRounds, if_neg (show ¬ i.val + 1 < i.val by omega)]
  · rw [dif_neg h, nextIndex_of_last h, readWord_twistRounds, if_pos (show 0 < i.val by omega)]

/-- The third read sees an old word until its index passes n, and a new one from there on. -/
theorem readWord_twistRounds_middle {p : Preset} (hm : p.m < p.n) (old : WordArray p) (i : Fin p.n) :
    readWord (firstRounds twistBody i.val (Nat.le_of_lt i.isLt) old) (middleIndex i) =
      if h : i.val + p.m < p.n then readWord old ⟨i.val + p.m, h⟩
      else readWord (twistWords old) ⟨i.val + p.m - p.n, by omega⟩ := by
  by_cases h : i.val + p.m < p.n
  · rw [dif_pos h, middleIndex_of_lt h, readWord_twistRounds, if_neg (show ¬ i.val + p.m < i.val by omega)]
  · rw [dif_neg h, middleIndex_of_wrap hm h, readWord_twistRounds, if_pos (show i.val + p.m - p.n < i.val by omega)]

/-- Word i after a pass, from old and new words (R90). -/
theorem readWord_twistWords_old_new {p : Preset} (h1 : 1 ≤ p.m) (hm : p.m < p.n) (old : WordArray p) (i : Fin p.n) :
    readWord (twistWords old) i =
      twistedWord p (readWord old i)
        (if h : i.val + 1 < p.n then readWord old ⟨i.val + 1, h⟩ else readWord (twistWords old) ⟨0, i.pos⟩)
        (if h : i.val + p.m < p.n then readWord old ⟨i.val + p.m, h⟩
         else readWord (twistWords old) ⟨i.val + p.m - p.n, by omega⟩) := by
  rw [readWord_twistWords, readWord_twistRounds_self, readWord_twistRounds_next (by omega),
    readWord_twistRounds_middle hm]

/-- Settles O16. -/
theorem twistReadsOldThenNewWords : Obligations.TwistReadsOldThenNewWords :=
  fun _ h1 hm old i => readWord_twistWords_old_new h1 hm old i

/-! ### The three-range form -/

/-- A loop whose round j is body `start + j` of the pass continues the rounds before `start`. -/
theorem rounds_firstRounds {p : Preset} {body : WordArray p → Fin p.n → WordArray p} {start count stop : Nat}
    (hstop : start + count = stop) (hle : stop ≤ p.n) {round : (j : Nat) → j < count → WordArray p → WordArray p}
    (hround : ∀ j hj ws, round j hj ws = body ws ⟨start + j, by omega⟩) (ws : WordArray p) :
    rounds count round (firstRounds body start (by omega) ws) = firstRounds body stop hle ws := by
  induction count generalizing stop with
  | zero => subst hstop; rfl
  | succ k ih =>
    subst hstop
    rw [rounds, ih rfl (by omega) (fun j hj ws => hround j (by omega) ws), hround]
    rfl

/-- The first loop is the bodies below n-m. -/
theorem twistRangeLow_eq_firstRounds {p : Preset} (h1 : 1 ≤ p.m) (ws : WordArray p) :
    twistRangeLow h1 ws = firstRounds twistBody (p.n - p.m) (by omega) ws := by
  refine rounds_firstRounds (start := 0) (Nat.zero_add _) _ (fun i hi ws => ?_) ws
  simp only [Nat.zero_add]
  rw [twistBody, nextIndex_of_lt (show i + 1 < p.n by omega), middleIndex_of_lt (show i + p.m < p.n by omega)]

/-- The second loop is the bodies from n-m to n-2. -/
theorem twistRangeHigh_firstRounds {p : Preset} (h1 : 1 ≤ p.m) (h2 : p.m < p.n) (ws : WordArray p) :
    twistRangeHigh h2 (firstRounds twistBody (p.n - p.m) (by omega) ws) =
      firstRounds twistBody (p.n - 1) (by omega) ws := by
  refine rounds_firstRounds (by omega) _ (fun j hj ws => ?_) ws
  have hwrap : p.n - p.m + j + p.m - p.n = j := by omega
  rw [twistBody, nextIndex_of_lt (show p.n - p.m + j + 1 < p.n by omega),
    middleIndex_of_wrap h2 (show ¬ p.n - p.m + j + p.m < p.n by omega)]
  simp only [hwrap]

/-- The last step is body n-1. -/
theorem twistLast_firstRounds {p : Preset} (h1 : 1 ≤ p.m) (h2 : p.m < p.n) (ws : WordArray p) :
    twistLast h2 (firstRounds twistBody (p.n - 1) (by omega) ws) = firstRounds twistBody p.n (Nat.le_refl _) ws := by
  refine rounds_firstRounds (start := p.n - 1) (count := 1) (round := fun _ _ => twistLast h2) (by omega) _
    (fun j hj ws => ?_) ws
  obtain rfl : j = 0 := by omega
  have hwrap : p.n - 1 + p.m - p.n = p.m - 1 := by omega
  simp only [Nat.add_zero]
  rw [twistLast, twistBody, nextIndex_of_last (show ¬ p.n - 1 + 1 < p.n by omega),
    middleIndex_of_wrap h2 (show ¬ p.n - 1 + p.m < p.n by omega)]
  simp only [hwrap]

/-- Settles O17: the three loops run the bodies in the order of the pass. -/
theorem twistIsTheThreeRangePass : Obligations.TwistIsTheThreeRangePass := by
  intro p h1 h2 ws
  rw [twistThreeRanges, twistRangeLow_eq_firstRounds, twistRangeHigh_firstRounds h1, twistLast_firstRounds h1]
  rfl

/-! ### The double-buffered pass -/

/-- Every read of the double-buffered pass sees an old word. -/
theorem readWord_doubleBufferedWords {p : Preset} (old : WordArray p) (i : Fin p.n) :
    readWord (doubleBufferedWords old) i =
      twistedWord p (readWord old i) (readWord old (nextIndex i)) (readWord old (middleIndex i)) :=
  readWord_forEachIndex
    (fun _ i => twistedWord p (readWord old i) (readWord old (nextIndex i)) (readWord old (middleIndex i))) old i

/-- Settles O18: below n-m both passes read old words; at n-m they differ in the third read alone, which is word 0. -/
theorem doubleBufferedPassDiffers : Obligations.DoubleBufferedPassDiffers := by
  intro p h2 hm old
  refine ⟨fun i hi => ?_, ?_⟩
  · rw [readWord_doubleBufferedWords, readWord_twistWords_old_new (by omega) hm, dif_pos (by omega),
      dif_pos (by omega), nextIndex_of_lt (by omega), middleIndex_of_lt (by omega)]
  · have hwrap : p.n - p.m + p.m - p.n = 0 := by omega
    have hnext : p.n - p.m + 1 < p.n := by omega
    have hmiddle : ¬ p.n - p.m + p.m < p.n := by omega
    rw [readWord_doubleBufferedWords, readWord_twistWords_old_new (by omega) hm, dif_pos hnext, dif_neg hmiddle,
      nextIndex_of_lt hnext, middleIndex_of_wrap hm hmiddle, twistedWord_middle_inj]
    simp only [hwrap]
    exact eq_comm

/-! ### The low bits of word 0 -/

/-- Arrays that agree but for the low r bits of word 0 are twisted to the same words: body 0 drops these bits, and the
other bodies that read word 0 see the new one (R97). -/
theorem readWord_twistWords_congr {p : Preset} (h1 : 1 ≤ p.m) (hm : p.m < p.n) {old old' : WordArray p}
    (hrest : ∀ i : Fin p.n, i.val ≠ 0 → readWord old i = readWord old' i)
    (hzero : ∀ i : Fin p.n, i.val = 0 → readWord old i &&& p.upperMask = readWord old' i &&& p.upperMask)
    (k : Nat) (hk : k < p.n) : readWord (twistWords old) ⟨k, hk⟩ = readWord (twistWords old') ⟨k, hk⟩ := by
  induction k using Nat.strongRecOn with
  | ind k ih =>
    have hself : readWord old ⟨k, hk⟩ &&& p.upperMask = readWord old' ⟨k, hk⟩ &&& p.upperMask := by
      by_cases h0 : k = 0
      · exact hzero _ h0
      · rw [hrest _ h0]
    rw [readWord_twistWords_old_new h1 hm old, readWord_twistWords_old_new h1 hm old', twistedWord_congr_self hself]
    congr 1
    · split
      next => exact hrest _ (Nat.succ_ne_zero k)
      next h =>
        have hlast : ¬ k + 1 < p.n := h
        exact ih 0 (by omega) _
    · split
      next => exact hrest _ (show k + p.m ≠ 0 by omega)
      next h =>
        have hwrap : ¬ k + p.m < p.n := h
        exact ih (k + p.m - p.n) (by omega) _

/-- Settles O19. -/
theorem twistIgnoresLowBitsOfWordZero : Obligations.TwistIgnoresLowBitsOfWordZero :=
  fun _ h1 hm _ _ hrest hzero => words_ext fun i => readWord_twistWords_congr h1 hm hrest hzero i.val i.isLt

/-! ### The zero array -/

/-- The array whose words are all zero. -/
def zeroWords (p : Preset) : WordArray p := tabulateWords fun _ => 0#p.W

@[simp] theorem readWord_zeroWords {p : Preset} (i : Fin p.n) : readWord (zeroWords p) i = 0#p.W :=
  readWord_tabulateWords _ i

/-- A loop whose every body leaves an array alone leaves it alone. -/
theorem firstRounds_fixed {p : Preset} {body : WordArray p → Fin p.n → WordArray p} {ws : WordArray p}
    (h : ∀ i, body ws i = ws) (k : Nat) (hk : k ≤ p.n) : firstRounds body k hk ws = ws := by
  induction k with
  | zero => rfl
  | succ k ih => rw [firstRounds, ih, h]

/-- A body on the zero array writes zero over zero. -/
theorem twistBody_zeroWords {p : Preset} (i : Fin p.n) : twistBody (zeroWords p) i = zeroWords p := by
  apply words_ext
  intro j
  rw [twistBody, readWord_zeroWords, readWord_zeroWords, readWord_zeroWords, twistedWord_zero]
  by_cases h : i = j
  · subst h
    simp
  · rw [readWord_writeWord_other _ _ h]

/-- The zero array is twisted to itself (R98). -/
theorem twistWords_zeroWords (p : Preset) : twistWords (zeroWords p) = zeroWords p :=
  firstRounds_fixed twistBody_zeroWords p.n (Nat.le_refl _)

/-- TEMPER of zero is zero. -/
theorem temper_zero (p : Preset) : temper p 0#p.W = 0#p.W := by
  simp [temper, temper1, temper2, temper3, temper4]

/-- An array that is zero but for the low r bits of word 0 is the zero array after one pass, and after every later one. -/
theorem twistTimes_zero {p : Preset} (h1 : 1 ≤ p.m) (hm : p.m < p.n) {old : WordArray p}
    (hrest : ∀ i : Fin p.n, i.val ≠ 0 → readWord old i = 0#p.W)
    (hzero : ∀ i : Fin p.n, i.val = 0 → readWord old i &&& p.upperMask = 0#p.W) (j : Nat) :
    twistTimes (j + 1) old = zeroWords p := by
  induction j with
  | zero =>
    have hpass : twistWords old = twistWords (zeroWords p) :=
      twistIgnoresLowBitsOfWordZero p h1 hm old (zeroWords p) (fun i hi => by simp [hrest i hi])
        (fun i hi => by simp [hzero i hi])
    exact hpass.trans (twistWords_zeroWords p)
  | succ j ih => rw [twistTimes, ih, twistWords_zeroWords]

/-- The offset of both tables is within their arrays (R8). -/
theorem preset_m_bounds (v : Variant) : 1 ≤ (preset v).m ∧ (preset v).m < (preset v).n := by cases v <;> decide

/-- Settles O20: one pass makes it the zero array, which every pass keeps and TEMPER maps to zero. -/
theorem zeroArrayStaysZero : Obligations.ZeroArrayStaysZero := by
  intro v old hrest hzero j i
  obtain ⟨h1, hm⟩ := preset_m_bounds v
  rw [twistTimes_zero h1 hm hrest hzero, readWord_zeroWords]
  exact ⟨rfl, temper_zero _⟩

/-- The seeding recurrence from a zero word leaves the index alone (R78). -/
theorem seedRecurrence_zero (p : Preset) (i : Nat) : seedRecurrence p 0#p.W i = BitVec.ofNat p.W i := by
  simp [seedRecurrence]

/-- Settles O12: a zero word 1 makes word 2 the number 2. -/
theorem seedNeverMakesTheZeroArray : Obligations.SeedNeverMakesTheZeroArray := by
  rintro v s0 i j hi hj ⟨hone, htwo⟩
  have htwo_ne : BitVec.ofNat (preset v).W 2 ≠ 0#(preset v).W := by cases v <;> decide
  rw [readWord_seedWords, hi] at hone
  rw [readWord_seedWords, hj, seedWord, hone, seedRecurrence_zero] at htwo
  exact htwo_ne htwo

/-! ### The words of successive passes as one sequence -/

/-- Number `n*q + i` of the sequence is word i after q passes. -/
theorem sequenceWord_eq {p : Preset} (hn : 0 < p.n) (ws : WordArray p) {k q i : Nat} (hi : i < p.n)
    (hk : k = p.n * q + i) : sequenceWord hn ws k = readWord (twistTimes q ws) ⟨i, hi⟩ := by
  have hdiv : k / p.n = q := by rw [hk, Nat.mul_add_div hn, Nat.div_eq_of_lt hi, Nat.add_zero]
  have hmod : k % p.n = i := by rw [hk, Nat.mul_add_mod, Nat.mod_eq_of_lt hi]
  simp only [sequenceWord, hdiv, hmod]

/-- The sequence `d <= n` numbers on from word i after q passes: a word of the same array, or of the next one. -/
theorem sequenceWord_add {p : Preset} (hn : 0 < p.n) (ws : WordArray p) {k q i d : Nat} (hi : i < p.n)
    (hk : k = p.n * q + i) (hd : d ≤ p.n) :
    sequenceWord hn ws (k + d) =
      if h : i + d < p.n then readWord (twistTimes q ws) ⟨i + d, h⟩
      else readWord (twistWords (twistTimes q ws)) ⟨i + d - p.n, by omega⟩ := by
  split
  next h => exact sequenceWord_eq hn ws h (by omega)
  next h =>
    have hnext : p.n * (q + 1) = p.n * q + p.n := Nat.mul_succ _ _
    exact sequenceWord_eq hn ws (q := q + 1) (by omega) (by omega)

/-- Settles O21: the reads of a body, old or new, are the words 1 and m further on in the sequence. -/
theorem passesContinueOneRecurrence : Obligations.PassesContinueOneRecurrence := by
  intro p hn h1 hm ws k
  obtain ⟨q, i, hi, hk⟩ : ∃ q i, i < p.n ∧ k = p.n * q + i :=
    ⟨k / p.n, k % p.n, Nat.mod_lt k hn, (Nat.div_add_mod k p.n).symm⟩
  have hlast : ¬ i + 1 < p.n → i + 1 - p.n = 0 := by omega
  rw [sequenceWord_eq hn ws hi hk, sequenceWord_add hn ws hi hk (d := 1) (by omega),
    sequenceWord_add hn ws hi hk (d := p.m) (by omega), sequenceWord_add hn ws hi hk (d := p.n) (by omega),
    dif_neg (by omega)]
  simp only [Nat.add_sub_cancel]
  rw [readWord_twistWords_old_new h1 hm, twistedWord, combine]
  by_cases h : i + 1 < p.n
  · simp only [dif_pos h]
  · simp only [dif_neg h, hlast h]

end Sys2Proof.Machine
end

-- What follows settles the obligations of spec/42_extract.md (O22, O23, O24, O25, O26, O38, O39).
section
/-! PROOF. The tempering stages as two shapes, a masked right shift and a masked left shift, each linear and with zero as
its only root (R106 to R113); EXTRACT in its three cases (R102 to R111); and the engine as it moves along the sequence of
words that a SEED starts (R114, R115). -/

namespace Sys2Proof.Machine

/-! ### The two shapes of a tempering stage -/

/-- The shape of stages 1 and 4: a right shift under a mask, XORed in. -/
def rightStage {w : Nat} (shift : Nat) (mask y : BitVec w) : BitVec w := y ^^^ ((y >>> shift) &&& mask)

/-- The shape of stages 2 and 3: a left shift under a mask, XORed in. -/
def leftStage {w : Nat} (shift : Nat) (mask y : BitVec w) : BitVec w := y ^^^ ((y <<< shift) &&& mask)

theorem temper1_eq (p : Preset) : temper1 p = rightStage p.u p.d := rfl
theorem temper2_eq (p : Preset) : temper2 p = leftStage p.s p.b := rfl
theorem temper3_eq (p : Preset) : temper3 p = leftStage p.t p.c := rfl

/-- Stage 4 has no mask, which is the mask of all ones (R109). -/
theorem temper4_eq (p : Preset) : temper4 p = rightStage p.l (BitVec.allOnes p.W) := by
  funext y
  rw [temper4, rightStage, BitVec.and_allOnes]

theorem rightStage_toNat {w : Nat} (shift : Nat) (mask y : BitVec w) :
    (rightStage shift mask y).toNat = y.toNat ^^^ (y.toNat / 2 ^ shift &&& mask.toNat) := by
  rw [rightStage, BitVec.toNat_xor, BitVec.toNat_and, BitVec.toNat_ushiftRight, Nat.shiftRight_eq_div_pow]

/-- The mask drops what a left shift moves out of the word (R16). -/
theorem leftStage_toNat {w : Nat} (shift : Nat) (mask y : BitVec w) :
    (leftStage shift mask y).toNat = y.toNat ^^^ (y.toNat * 2 ^ shift &&& mask.toNat) := by
  have hdrop : y.toNat * 2 ^ shift % 2 ^ w &&& mask.toNat = y.toNat * 2 ^ shift &&& mask.toNat :=
    calc y.toNat * 2 ^ shift % 2 ^ w &&& mask.toNat
      _ = y.toNat * 2 ^ shift % 2 ^ w &&& mask.toNat % 2 ^ w := by rw [Nat.mod_eq_of_lt mask.isLt]
      _ = (y.toNat * 2 ^ shift &&& mask.toNat) % 2 ^ w := Nat.and_mod_two_pow.symm
      _ = y.toNat * 2 ^ shift &&& mask.toNat := Nat.mod_eq_of_lt (Nat.and_lt_two_pow _ mask.isLt)
  rw [leftStage, BitVec.toNat_xor, BitVec.toNat_and, BitVec.toNat_shiftLeft, Nat.shiftLeft_eq, hdrop]

/-- A right shift fills the top bits with zeros, so the stage leaves them. -/
theorem getLsbD_rightStage_high {w : Nat} (shift : Nat) (mask y : BitVec w) {k : Nat} (hk : w ≤ k + shift) :
    (rightStage shift mask y).getLsbD k = y.getLsbD k := by
  rw [rightStage, BitVec.getLsbD_xor, BitVec.getLsbD_and, BitVec.getLsbD_ushiftRight,
    BitVec.getLsbD_of_ge y (shift + k) (by omega), Bool.false_and, Bool.xor_false]

/-- A left shift fills the low bits with zeros, so the stage leaves them. -/
theorem getLsbD_leftStage_low {w : Nat} (shift : Nat) (mask y : BitVec w) {k : Nat} (hk : k < shift) :
    (leftStage shift mask y).getLsbD k = y.getLsbD k := by
  simp [leftStage, hk]

theorem xor_and_distrib {w : Nat} (x y mask : BitVec w) : (x ^^^ y) &&& mask = (x &&& mask) ^^^ (y &&& mask) := by
  apply BitVec.eq_of_toNat_eq
  simp only [BitVec.toNat_and, BitVec.toNat_xor, Nat.and_xor_distrib_right]

theorem rightStage_xor {w : Nat} (shift : Nat) (mask y y' : BitVec w) :
    rightStage shift mask (y ^^^ y') = rightStage shift mask y ^^^ rightStage shift mask y' := by
  simp only [rightStage, BitVec.ushiftRight_xor_distrib, xor_and_distrib]
  ac_rfl

theorem leftStage_xor {w : Nat} (shift : Nat) (mask y y' : BitVec w) :
    leftStage shift mask (y ^^^ y') = leftStage shift mask y ^^^ leftStage shift mask y' := by
  simp only [leftStage, BitVec.shiftLeft_xor_distrib, xor_and_distrib]
  ac_rfl

/-- Zero is the only root of a right stage: a root equals a masked part of its own right shift, which is smaller unless it
is zero. -/
theorem eq_zero_of_rightStage {w shift : Nat} {mask y : BitVec w} (hs : 1 ≤ shift)
    (h : rightStage shift mask y = 0#w) : y = 0#w := by
  have heq : y.toNat = y.toNat / 2 ^ shift &&& mask.toNat := by
    rw [← Nat.xor_eq_zero_iff, ← rightStage_toNat, h]
    rfl
  have hle : y.toNat ≤ y.toNat / 2 ^ shift := heq.trans_le Nat.and_le_left
  have hzero : y.toNat = 0 := by
    by_contra hne
    have hlt : y.toNat / 2 ^ shift < y.toNat := Nat.div_lt_self (by omega) (Nat.one_lt_two_pow (by omega))
    omega
  exact BitVec.eq_of_toNat_eq hzero

/-- Zero is the only root of a left stage: a root equals a masked part of its own left shift, so a set bit of it needs a
lower set bit. -/
theorem eq_zero_of_leftStage {w shift : Nat} {mask y : BitVec w} (hs : 1 ≤ shift)
    (h : leftStage shift mask y = 0#w) : y = 0#w := by
  have heq : y = (y <<< shift) &&& mask := BitVec.xor_eq_zero_iff.1 h
  have hbits : ∀ k, y.getLsbD k = false := by
    intro k
    induction k using Nat.strongRecOn with
    | ind k ih =>
      by_cases hk : k < shift
      · rw [heq]
        simp [hk]
      · rw [heq]
        simp [ih (k - shift) (by omega)]
  exact BitVec.eq_of_getLsbD_eq fun k _ => by simp [hbits k]

/-- A linear map whose only root is zero is injective. -/
theorem injective_of_xor {w : Nat} {g : BitVec w → BitVec w} (hxor : ∀ y y', g (y ^^^ y') = g y ^^^ g y')
    (hroot : ∀ y, g y = 0#w → y = 0#w) : Function.Injective g := fun y y' h =>
  BitVec.xor_eq_zero_iff.1 (hroot _ (by rw [hxor, h, BitVec.xor_self]))

theorem rightStage_injective {w shift : Nat} (mask : BitVec w) (hs : 1 ≤ shift) :
    Function.Injective (rightStage shift mask) :=
  injective_of_xor (rightStage_xor shift mask) fun _ => eq_zero_of_rightStage hs

theorem leftStage_injective {w shift : Nat} (mask : BitVec w) (hs : 1 ≤ shift) :
    Function.Injective (leftStage shift mask) :=
  injective_of_xor (leftStage_xor shift mask) fun _ => eq_zero_of_leftStage hs

/-! ### TEMPER -/

/-- TEMPER is the composition of four stages of the two shapes (R112). -/
theorem temper_eq_comp (p : Preset) :
    temper p = rightStage p.l (BitVec.allOnes p.W) ∘ leftStage p.t p.c ∘ leftStage p.s p.b ∘ rightStage p.u p.d := by
  rw [← temper4_eq]
  rfl

theorem temper_xor (p : Preset) (y y' : Word p.W) : temper p (y ^^^ y') = temper p y ^^^ temper p y' := by
  simp only [temper_eq_comp, Function.comp_apply, rightStage_xor, leftStage_xor]

theorem temper_injective {p : Preset} (hu : 1 ≤ p.u) (hs : 1 ≤ p.s) (ht : 1 ≤ p.t) (hl : 1 ≤ p.l) :
    Function.Injective (temper p) := by
  rw [temper_eq_comp]
  exact (rightStage_injective _ hl).comp
    ((leftStage_injective _ ht).comp ((leftStage_injective _ hs).comp (rightStage_injective _ hu)))

/-- The four shifts of both tables are at least 1 (R8). -/
theorem preset_shifts_pos (v : Variant) :
    1 ≤ (preset v).u ∧ 1 ≤ (preset v).s ∧ 1 ≤ (preset v).t ∧ 1 ≤ (preset v).l := by cases v <;> decide

/-- Settles O22: stages 1 and 4 are masked right shifts, stages 2 and 3 masked left shifts, and the parameters stand in the
tables. -/
theorem temperStagesAsNumbers : Obligations.TemperStagesAsNumbers := by
  refine ⟨fun p y => ?_, rfl, rfl, rfl, rfl, rfl, rfl, rfl, rfl, rfl, rfl, rfl, rfl, rfl, rfl⟩
  have hfour : (temper4 p y).toNat = y.toNat ^^^ y.toNat / 2 ^ p.l := by
    rw [temper4, BitVec.toNat_xor, BitVec.toNat_ushiftRight, Nat.shiftRight_eq_div_pow]
  refine ⟨rightStage_toNat p.u p.d y, leftStage_toNat p.s p.b y, leftStage_toNat p.t p.c y, hfour, rfl,
    fun _ _ hk => getLsbD_rightStage_high p.u p.d y hk, fun _ hk => getLsbD_leftStage_low p.s p.b y hk,
    fun _ hk => getLsbD_leftStage_low p.t p.c y hk, fun _ _ hk => ?_⟩
  rw [temper4_eq]
  exact getLsbD_rightStage_high p.l _ y hk

/-- Settles O23: each stage is linear with zero as its only root, so their composition is injective, and the words are
finitely many. -/
theorem temperIsALinearBijection : Obligations.TemperIsALinearBijection :=
  ⟨fun p hu hs ht hl =>
    ⟨temper_zero p, temper_xor p, Finite.injective_iff_bijective.1 (temper_injective hu hs ht hl)⟩, preset_shifts_pos⟩

/-! ### EXTRACT -/

/-- The response to an EXTRACT that succeeds is the number of its word (R60, R111). -/
theorem responseWord_word (v : Variant) (y : Word (preset v).W) :
    responseWord statusOk (dataOfWord y) = BitVec.ofNat 72 y.toNat := by
  rw [responseWord_ok, dataOfWord_toNat (preset_W_le v)]

/-- EXTRACT, case Seeded, in terms of the engine after the twist that may run first. -/
theorem exec_extract_of_twistIfExhausted {s : State} {e : Engine (preset s.variant)}
    (hu : uninitialized s.engine = false) (he : twistIfExhausted s.engine = e)
    (hlt : e.cursor.val < (preset s.variant).n) :
    exec .extract s =
      .next (respond statusOk (dataOfWord (temper (preset s.variant) (readWord e.words ⟨e.cursor.val, hlt⟩)))
        (setEngine s (advance e hlt))) := by
  subst he
  exact exec_extract_seeded hu

/-- Settles O24: the case of a cursor below n. -/
theorem extractReturnsTheWordUnderTheCursor : Obligations.ExtractReturnsTheWordUnderTheCursor := by
  intro s h
  refine ⟨?_, BitVec.isLt _⟩
  rw [exec_extract_of_lt h, ← responseWord_word]
  rfl

/-- Settles O25: the case of a cursor at n, and the words in the case of a cursor below n. -/
theorem extractTwistsExactlyWhenExhausted : Obligations.ExtractTwistsExactlyWhenExhausted := by
  refine ⟨fun s h => ?_, fun s h => ⟨advance s.engine h, _, exec_extract_of_lt h, rfl⟩⟩
  rw [exec_extract_of_eq h, ← responseWord_word]
  rfl

/-- Settles O26: the case Uninitialized. -/
theorem extractBeforeSeedRaisesNotSeeded : Obligations.ExtractBeforeSeedRaisesNotSeeded := fun _ h =>
  exec_extract_uninitialized ((uninitialized_iff _).2 h)

/-! ### The sequence of words after a SEED -/

/-- The engine that has just passed number k of the sequence of R94 that starts at `ws`: the array that holds it, and the
cursor one past it. -/
def sequenceEngine {p : Preset} (hn : 0 < p.n) (ws : WordArray p) (k : Nat) : Engine p where
  words := twistTimes (k / p.n) ws
  cursor := ⟨k % p.n + 1, Nat.succ_lt_succ ((Nat.mod_lt k hn).trans (Nat.lt_succ_self p.n))⟩

/-- SEED leaves the engine past the last word of the seeded array (R79). -/
theorem seedEngine_eq_sequenceEngine {p : Preset} (hn : 0 < p.n) (operand : BitVec 64) :
    seedEngine p operand = sequenceEngine hn (seedWords p (seedValue p operand)) (p.n - 1) := by
  have hdiv : (p.n - 1) / p.n = 0 := Nat.div_eq_of_lt (by omega)
  have hmod : (p.n - 1) % p.n + 1 = p.n := by rw [Nat.mod_eq_of_lt (by omega)]; omega
  simp only [seedEngine, sequenceEngine, hdiv, hmod, twistTimes]

/-- The twist that may run first puts the next number of the sequence under the cursor (R103, R104). -/
theorem twistIfExhausted_sequenceEngine {p : Preset} (hn : 0 < p.n) (ws : WordArray p) (k : Nat) :
    twistIfExhausted (sequenceEngine hn ws k) =
      { words := twistTimes ((k + 1) / p.n) ws
        cursor := ⟨(k + 1) % p.n, (Nat.mod_lt _ hn).trans (Nat.lt_add_of_pos_right (by decide))⟩ } := by
  have hk : k % p.n + p.n * (k / p.n) = k := Nat.mod_add_div k p.n
  rcases Nat.lt_or_eq_of_le (Nat.mod_lt k hn : k % p.n + 1 ≤ p.n) with hlt | heq
  · obtain ⟨hdiv, hmod⟩ : (k + 1) / p.n = k / p.n ∧ (k + 1) % p.n = k % p.n + 1 :=
      (Nat.div_mod_unique hn).2 ⟨by omega, hlt⟩
    rw [twistIfExhausted_of_lt hlt]
    simp only [sequenceEngine, hdiv, hmod]
  · have hnext : p.n * (k / p.n + 1) = p.n * (k / p.n) + p.n := Nat.mul_succ _ _
    obtain ⟨hdiv, hmod⟩ : (k + 1) / p.n = k / p.n + 1 ∧ (k + 1) % p.n = 0 :=
      (Nat.div_mod_unique hn).2 ⟨by omega, hn⟩
    rw [twistIfExhausted_of_eq heq]
    simp only [twist, sequenceEngine, hdiv, hmod, twistTimes]

/-- The response that returns number k of the sequence, tempered (R114). -/
def sequenceResponse (v : Variant) (ws : WordArray (preset v)) (k : Nat) : ResponseWord :=
  BitVec.ofNat 72 (temper (preset v) (sequenceWord (preset_n_pos v) ws k)).toNat

/-- One EXTRACT moves one number along the sequence and returns the number it comes to. -/
theorem step_extract_sequenceEngine (s : State) (ws : WordArray (preset s.variant)) (k c : Nat) :
    step ((s.withEngine (sequenceEngine (preset_n_pos s.variant) ws k) c).withPorts [.command (encode .extract)] []) =
      .next ((s.withEngine (sequenceEngine (preset_n_pos s.variant) ws (k + 1)) c).withPorts []
        [sequenceResponse s.variant ws (k + 1)]) := by
  have hu : uninitialized (sequenceEngine (preset_n_pos s.variant) ws k) = false :=
    (not_uninitialized_iff _).2 (Nat.mod_lt k (preset_n_pos s.variant))
  refine (step_legal rfl (decode_encode .extract)).trans
    ((exec_extract_of_twistIfExhausted hu (twistIfExhausted_sequenceEngine (preset_n_pos s.variant) ws k)
      (Nat.mod_lt _ (preset_n_pos s.variant))).trans ?_)
  rw [sequenceResponse, ← responseWord_word]
  rfl

/-- EXTRACTs return the numbers of the sequence one after the other. -/
theorem deliver_extracts_sequenceEngine (s : State) (ws : WordArray (preset s.variant)) (count k c : Nat) :
    deliver (s.withEngine (sequenceEngine (preset_n_pos s.variant) ws k) c)
        (List.replicate count (.command (encode .extract))) =
      .next ((s.withEngine (sequenceEngine (preset_n_pos s.variant) ws (k + count)) c).withPorts []
        ((List.range' (k + 1) count).map (sequenceResponse s.variant ws))) := by
  induction count generalizing k with
  | zero => exact deliver_nil _
  | succ count ih =>
    rw [List.replicate_succ, List.range'_succ, List.map_cons, Nat.add_comm count 1, ← Nat.add_assoc]
    exact deliver_cons (step_extract_sequenceEngine s ws k c) (ih (k + 1))

/-- A SEED and k+1 EXTRACTs: the response to the SEED, and then numbers n to n+k of the sequence. -/
theorem deliver_seed_extracts (s : State) (operand : BitVec 64) (k : Nat) :
    deliver s (.command (encode (.seed operand)) :: List.replicate (k + 1) (.command (encode .extract))) =
      .next ((s.withEngine (sequenceEngine (preset_n_pos s.variant)
          (seedWords (preset s.variant) (seedValue (preset s.variant) operand)) ((preset s.variant).n + k))
          s.freeCount).withPorts []
        (0#72 :: (List.range' (preset s.variant).n (k + 1)).map (sequenceResponse s.variant
          (seedWords (preset s.variant) (seedValue (preset s.variant) operand))))) := by
  have hn := preset_n_pos s.variant
  have hrun := deliver_extracts_sequenceEngine s (seedWords (preset s.variant) (seedValue (preset s.variant) operand))
    (k + 1) ((preset s.variant).n - 1) s.freeCount
  rw [← seedEngine_eq_sequenceEngine, Nat.sub_add_cancel hn,
    show (preset s.variant).n - 1 + (k + 1) = (preset s.variant).n + k by omega] at hrun
  exact deliver_cons (step_seed s s.engine operand s.freeCount) hrun

/-- Settles O38: numbers n to n+k of the sequence, and the engine past number n+k. -/
theorem outputSequenceAfterSeed : Obligations.OutputSequenceAfterSeed := by
  intro s operand k
  refine ⟨sequenceEngine (preset_n_pos s.variant) (seedWords (preset s.variant) (seedValue (preset s.variant) operand))
    ((preset s.variant).n + k), (deliver_seed_extracts s operand k).trans ?_, ?_, ?_⟩
  · rw [List.range'_eq_map_range, List.map_map]
    rfl
  · exact congrArg (twistTimes · _) (Nat.add_div_left k (preset_n_pos s.variant))
  · exact congrArg (· + 1) (Nat.add_mod_left _ k)

/-- Settles O39: number 2n-1 is the last of the array after one pass, number 2n the first of the array after two. -/
theorem oneTwistInTheFirstPass : Obligations.OneTwistInTheFirstPass := by
  intro s operand
  have hn := preset_n_pos s.variant
  obtain ⟨e, hrun, hwords, hcursor⟩ := outputSequenceAfterSeed s operand ((preset s.variant).n - 1)
  obtain ⟨e', hrun', hwords', hcursor'⟩ := outputSequenceAfterSeed s operand (preset s.variant).n
  rw [Nat.sub_add_cancel hn] at hrun
  rw [Nat.div_eq_of_lt (Nat.sub_lt hn Nat.one_pos)] at hwords
  rw [Nat.mod_eq_of_lt (Nat.sub_lt hn Nat.one_pos), Nat.sub_add_cancel hn] at hcursor
  rw [Nat.div_self hn] at hwords'
  rw [Nat.mod_self] at hcursor'
  exact ⟨e, e', _, _, hrun, hwords, hcursor, hrun', hwords'.trans (congrArg twistWords hwords.symm), hcursor'⟩

end Sys2Proof.Machine
end

-- What follows settles the obligations of spec/43_facade.md (O42, O43, O44).
section
/-! PROOF. Host software over EXTRACT: one draw from a Seeded engine, said once as `Draw`; then the operations that read
words through it (R118 to R125). -/

namespace Sys2Proof.Machine

/-! ### One draw -/

/-- EXTRACT takes the Seeded engine of `s` to that of `t` and returns the word `w`, which the host reads (R118). -/
structure Draw (s : State) (w : Nat) (t : State) : Prop where
  exec_eq : exec .extract s = .next t
  output_eq : t.output = s.output ++ [BitVec.ofNat 72 w]
  word_lt : w < 2 ^ (preset s.variant).W
  nextNumber_eq : nextNumber s = (.ok w, t)
  seeded : t.engine.cursor.val ≤ (preset t.variant).n

/-- A host that issues a command reads the last response of its execution (R55). -/
theorem transact_of_exec {i : Instr} {s t : State} (h : exec i s = .next t) :
    transact i s = (t.output.getLast?, t) := by
  have hstep : step (presentWord (encode i) s) = .next t :=
    (step_legal (presentWord_input _ s) (decode_encode i)).trans h
  simp only [transact, hstep]

/-- The host reads the data of an OK response as a number (R118). -/
theorem nextNumber_of_exec {s t : State} {d : BitVec 64} (h : exec .extract s = .next t)
    (ho : t.output = s.output ++ [responseWord statusOk d]) : nextNumber s = (.ok d.toNat, t) := by
  have hlast : t.output.getLast? = some (responseWord statusOk d) := by rw [ho, List.getLast?_concat]
  simp [nextNumber, transact_of_exec h, hlast]

/-- A Seeded engine gives a word and stays Seeded. -/
theorem exists_draw {s : State} (hs : s.engine.cursor.val ≤ (preset s.variant).n) : ∃ w t, Draw s w t := by
  have hexec := exec_extract_seeded ((not_uninitialized_iff s.engine).2 hs)
  have hnext := nextNumber_of_exec hexec rfl
  rw [dataOfWord_toNat (preset_W_le _)] at hnext
  exact ⟨_, _, hexec, congrArg (s.output ++ [·]) (responseWord_word _ _), BitVec.isLt _, hnext,
    twistIfExhausted_cursor_lt (preset_n_pos s.variant) s.engine⟩

theorem Draw.output_length {s t : State} {w : Nat} (h : Draw s w t) : t.output.length = s.output.length + 1 := by
  rw [h.output_eq, List.length_append, List.length_singleton]

theorem Draw.mapNext_eq {α : Type} {s t : State} {w : Nat} (h : Draw s w t) (g : Nat → α) :
    mapNext g s = (.ok (g w), t) := by
  simp only [mapNext, h.nextNumber_eq]

/-! ### Bounded integers -/

theorem Draw.randIntInclusive_eq {s t : State} {w : Nat} (h : Draw s w t) {a b : Int} (hab : a < b) :
    randIntInclusive a b s = (.ok ((w : Int) % (b - a + 1) + a), t) := by
  rw [randIntInclusive, if_neg (Int.not_le.2 hab), h.mapNext_eq]

theorem Draw.randIntExclusive_eq {s t : State} {w : Nat} (h : Draw s w t) {a b : Int} (hab : a < b) :
    randIntExclusive a b s = (.ok ((w : Int) % (b - a) + a), t) := by
  rw [randIntExclusive, if_neg (Int.not_le.2 hab), h.mapNext_eq]

/-- A remainder modulo the positive `d`, moved up by `a`, lies in the `d` integers from `a` on. -/
theorem emod_add_bounds (w a : Int) {d : Int} (hd : 0 < d) : a ≤ w % d + a ∧ w % d + a < a + d := by
  have hnonneg := Int.emod_nonneg w (Int.ne_of_gt hd)
  have hlt := Int.emod_lt_of_pos w hd
  omega

/-- Settles O42: the range is tested first; then one draw gives the word, and the rest is the range of a remainder. -/
theorem boundedIntegersStayInRange : Obligations.BoundedIntegersStayInRange := by
  intro a b s
  refine ⟨fun hge => ⟨if_pos hge, if_pos hge⟩, fun hab hs => ?_⟩
  obtain ⟨w, t, h⟩ := exists_draw hs
  obtain ⟨hlow, hhigh⟩ := emod_add_bounds w a (d := b - a + 1) (by omega)
  obtain ⟨hlow', hhigh'⟩ := emod_add_bounds w a (d := b - a) (by omega)
  exact ⟨w, t, h.exec_eq, h.output_eq, h.word_lt, h.randIntInclusive_eq hab, h.randIntExclusive_eq hab,
    hlow, by omega, hlow', by omega⟩

/-- An inclusive bounded integer on a Seeded engine: in its range, for one response, and the engine stays Seeded. -/
theorem exists_randIntInclusive {s : State} (hs : s.engine.cursor.val ≤ (preset s.variant).n) {a b : Int}
    (hab : a < b) : ∃ x t, randIntInclusive a b s = (.ok x, t) ∧ (a ≤ x ∧ x ≤ b) ∧
      t.output.length = s.output.length + 1 ∧ t.engine.cursor.val ≤ (preset t.variant).n := by
  obtain ⟨w, t, h⟩ := exists_draw hs
  have hrange := emod_add_bounds w a (d := b - a + 1) (by omega)
  exact ⟨_, t, h.randIntInclusive_eq hab, by omega, h.output_length, h.seeded⟩

/-! ### Float and sample -/

/-- A sample on a Seeded engine: as many integers in the range as asked for, each for one response (R123). -/
theorem exists_sample {a b : Int} (hab : a < b) (k : Nat) {s : State}
    (hs : s.engine.cursor.val ≤ (preset s.variant).n) : ∃ xs t, sample a b k s = (.ok xs, t) ∧ xs.length = k ∧
      (∀ x ∈ xs, a ≤ x ∧ x ≤ b) ∧ t.output.length = s.output.length + k := by
  induction k generalizing s with
  | zero => exact ⟨[], s, rfl, rfl, by simp, rfl⟩
  | succ k ih =>
    obtain ⟨x, t, hx, hrange, hout, ht⟩ := exists_randIntInclusive hs hab
    obtain ⟨xs, u, hxs, hlen, hranges, houts⟩ := ih ht
    refine ⟨x :: xs, u, ?_, congrArg (· + 1) hlen, List.forall_mem_cons.2 ⟨hrange, hranges⟩, by omega⟩
    simp only [sample, hx, hxs]

/-- Settles O43: the float is one draw, the sample an induction on its size. -/
theorem sampleAndFloatDrawWords : Obligations.SampleAndFloatDrawWords := by
  intro s hs
  refine ⟨fun divide => ?_, fun a b k hab => exists_sample hab k hs⟩
  obtain ⟨w, t, h⟩ := exists_draw hs
  exact ⟨w, t, h.exec_eq, h.output_eq, h.word_lt, h.mapNext_eq _⟩

/-! ### Shuffle -/

/-- A swap keeps the elements, in and out of range. -/
theorem swapAt_perm {α : Type} (xs : List α) (i j : Nat) : (swapAt xs i j).Perm xs := by
  unfold swapAt
  split
  · next x y hx hy =>
    obtain ⟨hi, rfl⟩ := List.getElem?_eq_some_iff.1 hx
    obtain ⟨hj, rfl⟩ := List.getElem?_eq_some_iff.1 hy
    exact List.set_set_perm hi hj
  · exact .refl xs

/-- The swaps of a shuffle of two or more elements on a Seeded engine: a permutation, for two responses a swap (R125). -/
theorem exists_shuffleRounds {α : Type} (k : Nat) {xs : List α} (hxs : 2 ≤ xs.length) {s : State}
    (hs : s.engine.cursor.val ≤ (preset s.variant).n) : ∃ ys t, shuffleRounds k xs s = (.ok ys, t) ∧
      ys.Perm xs ∧ t.output.length = s.output.length + 2 * k := by
  induction k generalizing xs s with
  | zero => exact ⟨xs, s, rfl, .refl xs, rfl⟩
  | succ k ih =>
    have hab : (0 : Int) < xs.length - 1 := by omega
    obtain ⟨i, t, hi, -, hout, ht⟩ := exists_randIntInclusive hs hab
    obtain ⟨j, u, hj, -, hout', hu⟩ := exists_randIntInclusive ht hab
    have hswap := swapAt_perm xs i.toNat j.toNat
    obtain ⟨ys, v, hys, hperm, houts⟩ := ih (hswap.length_eq.symm ▸ hxs) hu
    refine ⟨ys, v, ?_, hperm.trans hswap, by omega⟩
    simp only [shuffleRounds, hi, hj, hys]

/-- Settles O44: `10*L` swaps. -/
theorem shuffleKeepsTheElements : Obligations.ShuffleKeepsTheElements := by
  intro xs s hxs hs
  obtain ⟨ys, t, hys, hperm, hout⟩ := exists_shuffleRounds (10 * xs.length) hxs hs
  exact ⟨ys, t, hys, hperm, by omega⟩

end Sys2Proof.Machine
end

-- What follows settles the obligations of spec/60_exceptions.md (O29, O36).
section
/-! PROOF. The status of the response to every command word (R140), and runs that begin with a fault (R137). -/

namespace Sys2Proof.Machine

/-! ### The status of every response -/

/-- A response word is the number its status and its data make (R59). -/
theorem responseWord_eq_ofNat (st : BitVec 8) (d : BitVec 64) :
    responseWord st d = BitVec.ofNat 72 (st.toNat * 2 ^ 64 + d.toNat) := by
  rw [← toNat_fields, BitVec.ofNat_toNat, BitVec.setWidth_eq, responseWord]

/-- A word that is neither a SEED nor the EXTRACT is rejected (R65, R66). -/
theorem exists_decode_error_of_ne {cw : CommandWord} (hseed : cw.toNat / 2 ^ 64 ≠ 1)
    (hextract : cw ≠ 0x020000000000000000#72) : ∃ e, decode cw = .error e := by
  match hd : decode cw with
  | .error e => exact ⟨e, rfl⟩
  | .ok (.seed _) => exact absurd ((opcodeField_eq_iff cw 0x01#8).1 (opcodeField_of_decode_seed hd)) hseed
  | .ok .extract => exact absurd ((decode_eq_extract_iff cw).1 hd) hextract

/-- EXTRACT of a Seeded engine answers OK with the data of a word of W bits (R60, R111). -/
theorem exists_exec_extract_ok {s : State} (hu : uninitialized s.engine = false) :
    ∃ e data, exec .extract s = .next (respond statusOk data (setEngine s e)) ∧
      data.toNat < 2 ^ (preset s.variant).W := by
  refine ⟨_, _, exec_extract_seeded hu, ?_⟩
  rw [dataOfWord_toNat (preset_W_le _)]
  exact BitVec.isLt _

/-- Settles O29, by the columns of the table of R140 and, for EXTRACT, its two rows. -/
theorem statusOfEveryCommand : Obligations.StatusOfEveryCommand := by
  intro s cw rest hin
  by_cases hseed : cw.toNat / 2 ^ 64 = 1
  · have hd := decode_seed ((opcodeField_eq_iff cw 0x01#8).2 hseed)
    refine ⟨_, 0#64, step_legal hin hd, rfl, ?_, Nat.two_pow_pos _, fun _ => rfl, fun _ => rfl⟩
    rw [if_pos hseed]
    exact congrArg (s.output ++ [·]) (responseWord_eq_ofNat statusOk 0#64)
  rw [if_neg hseed]
  by_cases hextract : cw = 0x020000000000000000#72
  · have hstep := step_legal hin ((decode_eq_extract_iff cw).2 hextract)
    rw [if_pos hextract]
    by_cases hc : s.engine.cursor.val = (preset s.variant).n + 1
    · have hu : uninitialized (setInput s rest).engine = true := (uninitialized_iff _).2 hc
      refine ⟨_, 0#64, hstep.trans (exec_extract_uninitialized hu), rfl, ?_, Nat.two_pow_pos _, fun _ => rfl,
        fun _ => rfl⟩
      rw [if_pos hc]
      exact congrArg (s.output ++ [·]) (responseWord_eq_ofNat (statusOfFault .notSeeded) 0#64)
    · have hu : uninitialized (setInput s rest).engine = false :=
        Bool.eq_false_iff.2 (mt (uninitialized_iff _).1 hc)
      obtain ⟨e, data, hexec, hdata⟩ := exists_exec_extract_ok hu
      refine ⟨_, data, hstep.trans hexec, rfl, ?_, hdata, absurd hextract, fun h => absurd h hc⟩
      rw [if_neg hc]
      exact congrArg (s.output ++ [·]) (responseWord_eq_ofNat statusOk data)
  · obtain ⟨_, hd⟩ := exists_decode_error_of_ne hseed hextract
    refine ⟨_, 0#64, step_illegal hin hd, rfl, ?_, Nat.two_pow_pos _, fun _ => rfl, fun _ => rfl⟩
    rw [if_neg hextract]
    exact congrArg (s.output ++ [·]) (responseWord_eq_ofNat (statusOfFault .illegalCommand) 0#64)

/-! ### Runs that begin with a fault -/

/-- A run whose first step raises a fault is the run without that step, the fault's response in front (R136, R137). -/
theorem deliver_cons_raise {s t : State} {ev : Event} {es : List Event} {f : Fault}
    (hstep : step (s.withPorts [ev] []) = .next (raise f (s.withPorts [] []))) (hrun : deliver s es = .next t)
    (hin : t.input = []) :
    deliver s (ev :: es) = .next { t with output := responseWord (statusOfFault f) 0#64 :: t.output } := by
  rw [deliver_cons hstep hrun, ← hin]
  rfl

/-- Settles O36: each of the two words makes the first step raise its fault. -/
theorem faultsAreNotSticky : Obligations.FaultsAreNotSticky := by
  intro s es
  obtain ⟨t, hrun, hin, -⟩ := run_spec es s
  refine ⟨t, hrun, fun cw e hd => ?_, fun hc => ?_⟩
  · exact deliver_cons_raise (f := .illegalCommand) (step_illegal rfl hd) hrun hin
  · have hu : uninitialized (s.withPorts [] []).engine = true := (uninitialized_iff _).2 hc
    have hstep := (step_legal (s := s.withPorts [.command (encode .extract)] []) rfl (decode_encode .extract)).trans
      (exec_extract_uninitialized hu)
    exact deliver_cons_raise hstep hrun hin

end Sys2Proof.Machine
end

-- What follows settles the obligations of spec/70_reset_and_hazards.md (O7, O8, O9).
section
/-! PROOF. The two resets: between two commands (R150) and during one (R151). -/

namespace Sys2Proof.Machine

/-! ### The effect of each reset -/

/-- Word i of an engine that lost its words is the free value of its generation (R34). -/
theorem readWord_uninitializedEngine (p : Preset) (g : Nat) (i : Fin p.n) :
    readWord (uninitializedEngine p g).words i = Config.unspecifiedWord p.W g i.val :=
  readWord_tabulateWords _ i

/-- The reset event on a Seeded engine: the words are lost, no response (R150). -/
theorem step_reset_seeded {s : State} {rest : List Event} (hin : s.input = .reset :: rest)
    (hu : uninitialized s.engine = false) : step s = .next (loseWords (setInput s rest)) :=
  (step_reset hin).trans (congrArg _ (applyReset_seeded (s := setInput s rest) hu))

/-- The reset event on an Uninitialized engine is taken and changes nothing (R150). -/
theorem step_reset_uninitialized {s : State} {rest : List Event} (hin : s.input = .reset :: rest)
    (hu : uninitialized s.engine = true) : step s = .next (setInput s rest) :=
  (step_reset hin).trans (congrArg _ (applyReset_uninitialized (s := setInput s rest) hu))

/-- Settles O7, by the two states an engine can be in. -/
theorem resetEventMakesUninitialized : Obligations.ResetEventMakesUninitialized := by
  intro s rest hin
  cases hu : uninitialized s.engine with
  | true =>
    have hc := (uninitialized_iff s.engine).1 hu
    exact ⟨s.engine, s.freeCount, step_reset_uninitialized hin hu, hc, fun hle => by omega, fun _ => ⟨rfl, rfl⟩⟩
  | false =>
    have hc := (not_uninitialized_iff s.engine).1 hu
    exact ⟨uninitializedEngine (preset s.variant) s.freeCount, s.freeCount + 1, step_reset_seeded hin hu,
      uninitializedEngine_cursor _ _, fun _ => ⟨rfl, readWord_uninitializedEngine _ _⟩, fun heq => by omega⟩

/-- Settles O9: the step loses the words whatever the command is. -/
theorem resetDuringCommandAbandonsIt : Obligations.ResetDuringCommandAbandonsIt := fun s _ _ hin =>
  ⟨uninitializedEngine (preset s.variant) s.freeCount, step_cut hin, uninitializedEngine_cursor _ _,
    readWord_uninitializedEngine _ _⟩

/-! ### Two resets in a row -/

/-- A reset in front of a run that starts Uninitialized makes no difference (R150). -/
theorem deliver_reset_uninitialized {s : State} (hu : uninitialized s.engine = true) (es : List Event) :
    deliver s (.reset :: es) = deliver s es := by
  obtain ⟨t, hrun, hin, -⟩ := run_spec es s
  have hstep := step_reset_uninitialized (s := s.withPorts [.reset] []) rfl hu
  calc deliver s (.reset :: es)
    _ = .next (t.withPorts [] t.output) := deliver_cons hstep hrun
    _ = deliver s es := by rw [hrun, ← hin, withPorts_self]

/-- Settles O8: the first reset leaves Uninitialized, so the second makes no difference. -/
theorem twoResetsEqualOne : Obligations.TwoResetsEqualOne := by
  intro s es
  obtain ⟨e, c, ha, hu⟩ := applyReset_frame (s.withPorts [] [])
  have hstep : step (s.withPorts [.reset] []) = .next ((s.withEngine e c).withPorts [] []) :=
    (step_reset rfl).trans (congrArg _ ha)
  obtain ⟨t, hrun, -⟩ := run_spec es ((s.withEngine e c).withPorts [] [])
  exact (deliver_cons hstep ((deliver_reset_uninitialized hu es).trans hrun)).trans (deliver_cons hstep hrun).symm

end Sys2Proof.Machine
end
